-- ==== Sys2Proof/Config.lean ====
section
/-! DEFINITION. The implementation parameters of the WideInt unit (00_scope.md rules R6 to R9): what a build of the
unit fixes once. The spec leaves no value of the unit open, so there is no free value here. -/

namespace Sys2Proof.Config

/-- The number of limbs of every WideInt (R6, decision D1). The operations of the model are written for any number of
limbs and are instantiated here. -/
def SIZE : Nat := 254

/-- The width of a WideInt in bits, `8*SIZE` (R7). -/
def W : Nat := 8 * SIZE

/-- The modulus `2^W` of the unit's arithmetic (R7). Irreducible, so that no tactic writes its 612 digits out. -/
@[irreducible] def MODULUS : Nat := 2 ^ W

/-- Half the modulus, `2^(W-1)`: the magnitude of the least value (R7). Irreducible for the same reason. -/
@[irreducible] def HALF : Nat := 2 ^ (W - 1)

/-- The least representable value, `-2^(W-1)` (R7, R12). -/
def MIN : Int := -(HALF : Int)

/-- The greatest representable value, `2^(W-1) - 1`, included in the range (R7, R12, 90_conflicts.md C1). -/
def MAX : Int := (HALF : Int) - 1

/-- The width of the operation code (R9, decision D3). -/
def OP_BITS : Nat := 4

/-- The width of the text length fields `slen` and `tlen` (R9, decision D10). -/
def LEN_BITS : Nat := 16

/-- The width of the status code (R9, decision D4). -/
def STATUS_BITS : Nat := 2

/-- The width of the native integer of FROMINT (R8). -/
def INT_BITS : Nat := 32

/-- The constraint of R6 on the limb count: the integer loader writes four limbs. -/
theorem four_le_SIZE : 4 ≤ SIZE := by decide

/-- The constraint of R6 on the limb count: at least 2025 bits of range. -/
theorem range_le_SIZE : 2025 ≤ 8 * SIZE := by decide

/-- R6, conflict C2: 254 is the smallest limb count that gives 2025 bits. -/
theorem SIZE_least (n : Nat) (h : 2025 ≤ 8 * n) : SIZE ≤ n := by
  unfold SIZE; omega

theorem MODULUS_eq : MODULUS = 2 ^ (8 * SIZE) := by unfold MODULUS W; rfl

theorem HALF_eq : HALF = 2 ^ (8 * SIZE - 1) := by unfold HALF W; rfl

theorem MODULUS_eq_pow_W : MODULUS = 2 ^ W := by unfold MODULUS; rfl

theorem HALF_eq_pow_W : HALF = 2 ^ (W - 1) := by unfold HALF; rfl

end Sys2Proof.Config
end

