-- ==== Sys2Proof/Word.lean ====
section
/-! DEFINITION. The word types: a limb, the WideInt as its sequence of limbs (10_state.md rules R8, R10, R15), and the
packed bit string of the request and response ports (30_encoding.md rules R40, R46). Their readings and field
extraction stand in Machine/Wide.lean and Decode.lean. -/

namespace Sys2Proof

/-- A limb: 8 unsigned bits (R8). Text bytes have the same type. -/
abbrev Byte := BitVec 8

/-- A value of exactly `n` limbs, index 0 the least significant (R10). It has no other attribute, and no list of `n`
limbs is excluded (R14). -/
structure Limbs (n : Nat) where
  /-- the limbs, least significant first (R28) -/
  list : List Byte
  /-- the width never changes (R15) -/
  length_eq : list.length = n
deriving DecidableEq, Repr

/-- A WideInt: `SIZE` limbs (R10). -/
abbrev WideInt := Limbs Config.SIZE

/-- A packed request or response: a bit string of `length` bits, bit 0 first (R40, R46), written as the number whose
bit `k` is bit `k` of the string. Bits of `value` at or above `length` are no part of the string and are never read. -/
structure Packet where
  /-- how many bits the string has -/
  length : Nat
  /-- the string as a number -/
  value : Nat
deriving DecidableEq, Repr

end Sys2Proof
end

