-- ==== Sys2Proof/Machine/State.lean ====
section
/-! DEFINITION. The state of the unit (10_state.md section 2), the responses it gives (30_encoding.md rules R45, R47) and
the state after reset. -/

namespace Sys2Proof.Machine

/-- The error conditions (R108, R109, R111). They are ordinary responses: the unit goes on after each (R113). -/
inductive ErrorCode where
  /-- DIV or REM with a zero divisor (R108) -/
  | divisionByZero
  /-- FROMDEC with a text that is no decimal numeral (R109) -/
  | invalidFormat
  /-- the reserved operation code (R111) -/
  | illegalOp
deriving DecidableEq, Repr

/-- What an OK response carries (R45). -/
inductive Payload where
  /-- `WIDE(r)` -/
  | wide (r : WideInt)
  /-- `BOOL(c)`, 1 for true -/
  | bool (c : Bool)
  /-- `TEXT(t)`, first character first; `tlen` is its length -/
  | text (t : List Byte)
deriving DecidableEq, Repr

/-- A response: status OK with exactly one payload, or an error status with none at all (R45, R110, R112). -/
inductive Response where
  | ok (p : Payload)
  | error (e : ErrorCode)
deriving DecidableEq, Repr

/-- What the host can do to the unit (R122): present a packed request, or assert reset (R123). -/
inductive HostInput where
  | request (p : Packet)
  | reset
deriving DecidableEq, Repr

/-- The state. `resp` is the unit's only register (R22). `script` is the MODEL's own field: the host's coming inputs,
the head being what the host does next; the unit itself queues nothing (R128; assumption log 1, DESIGN CHOICE). -/
structure State where
  /-- `RESP`: nothing, or the response of the latest transaction (R22) -/
  resp : Option Response
  /-- the inputs the host has still to give -/
  script : List HostInput
deriving DecidableEq, Repr

/-- Why the machine stops. The unit has no fatal condition: its errors are responses and "none are globally fatal" (R113),
so this type has no constructor (assumption log 3). -/
inductive Fault where
deriving DecidableEq, Repr

/-- Why the model gives no step. -/
inductive Refusal where
  /-- Raised by an arm of `exec` for an instruction without a meaning; no arm of this model raises it. Safe. -/
  | notModelled (mnemonic : String)
  /-- Raised by `step` when the host presents a request that lacks bits of its format, which R122 forbids it and for
  which the spec gives no outcome (assumption log 2, DESIGN CHOICE). Safe. -/
  | incompleteRequest
deriving DecidableEq, Repr

/-- The machine right after reset: `RESP = none` (R123, R124). The host has presented nothing yet (assumption log 1). -/
def State.reset : State := { resp := none, script := [] }

end Sys2Proof.Machine
end

