-- ==== Sys2Proof/Machine/Ops.lean ====
section
/-! DEFINITION. The operations on the unit's one register (10_state.md rule R22): responding with a payload, reporting
an error, and reset. There is no memory to operate on (20_memory.md rule R25). -/

namespace Sys2Proof.Machine

/-- `respond <payload>`: the operation ends and `RESP <- some(OK, payload)` (00_scope.md section 5, R45). -/
def State.respond (payload : Payload) (s : State) : State := { s with resp := some (.ok payload) }

/-- `raise <Error>`, the unit's whole taking of an error: the operation ends and `RESP` holds the error status with no
payload. No state is saved, no mode changed, no control transferred (R110, R117), and nothing is left to return
from (R118). -/
def State.raise (e : ErrorCode) (s : State) : State := { s with resp := some (.error e) }

/-- The reset input: its whole effect is `RESP <- none` (R123). -/
def State.applyReset (s : State) : State := { s with resp := none }

end Sys2Proof.Machine
end

