-- ==== Sys2Proof/Machine/Wide.lean ====
section
/-! DEFINITION. The readings of a WideInt (10_state.md rules R11 to R13, 00_scope.md section 5): unsigned `U`, signed
`V`, the sign bit, and `wide`, the value with a given unsigned reading. They are written for any number of limbs. -/

namespace Sys2Proof

/-- The unsigned number a limb list denotes, limb `i` with weight `256^i` (R11). -/
def limbsToNat : List Byte → Nat
  | [] => 0
  | b :: bs => b.toNat + 256 * limbsToNat bs

/-- The `n` low base-256 digits of a number, least significant first: `(u div 256^i) mod 256`. -/
def natToLimbs : Nat → Nat → List Byte
  | 0, _ => []
  | n + 1, u => BitVec.ofNat 8 u :: natToLimbs n (u / 256)

theorem natToLimbs_length (n u : Nat) : (natToLimbs n u).length = n := by
  induction n generalizing u with
  | zero => rfl
  | succ n ih => simp [natToLimbs, ih]

namespace Limbs

/-- Limb `i` of a value (R10); only indices below the number of limbs exist (R26). -/
def l {n : Nat} (x : Limbs n) (i : Nat) : Byte := x.list.getD i 0

/-- The unsigned reading (R11). -/
def U {n : Nat} (x : Limbs n) : Nat := limbsToNat x.list

/-- The two's complement reading over the full width (R12). Irreducible, so that no tactic evaluates the powers of two in
it; no operation of the unit is defined through it. -/
@[irreducible] def V {n : Nat} (x : Limbs n) : Int :=
  if x.U < 2 ^ (8 * n - 1) then (x.U : Int) else (x.U : Int) - ((2 ^ (8 * n) : Nat) : Int)

/-- The sign bit: the most significant bit of the top limb (R13). -/
def sign {n : Nat} (x : Limbs n) : Bool := (x.l (n - 1)).getLsbD 7

/-- `wide(u)`, the value whose unsigned reading is `u` (00_scope.md section 5); a larger `u` is taken modulo the width. -/
def wide (n u : Nat) : Limbs n := ⟨natToLimbs n u, natToLimbs_length n u⟩

/-- The value with limb `i` equal to `f i`. -/
def ofFn (n : Nat) (f : Nat → Byte) : Limbs n := ⟨(List.range n).map f, by simp⟩

/-- The value whose signed reading is congruent to `v`: `wide(v mod 2^W)`. -/
def ofInt (n : Nat) (v : Int) : Limbs n := wide n (v % ((2 ^ (8 * n) : Nat) : Int)).toNat

/-- All limbs zero: the default value and the one representation of zero (R14, R16). -/
def zero (n : Nat) : Limbs n := wide n 0

/-- `ONE` (00_scope.md section 5). -/
def one (n : Nat) : Limbs n := wide n 1

/-- `TEN`, the built-in constant of the decimal codec (R67, R126). -/
def ten (n : Nat) : Limbs n := wide n 10

end Limbs

namespace WideInt

/-- `ZERO` at the unit's width. -/
def ZERO : WideInt := Limbs.zero Config.SIZE

/-- `ONE` at the unit's width. -/
def ONE : WideInt := Limbs.one Config.SIZE

/-- The least value, limbs `00*253 80` (R7). -/
def MIN : WideInt := Limbs.wide Config.SIZE Config.HALF

/-- The greatest value, limbs `FF*253 7F` (R7). -/
def MAX : WideInt := Limbs.wide Config.SIZE (Config.HALF - 1)

end WideInt

end Sys2Proof
end

