-- ==== Sys2Proof/Machine/Complement.lean ====
section
/-! DEFINITION. The complement engine and NEG (40_complement.md). -/

namespace Sys2Proof.Machine

/-- The first pass of R55: the bitwise NOT of every limb, `255 - x.l[i]`. -/
def invert : List Byte → List Byte
  | [] => []
  | b :: bs => BitVec.ofNat 8 (255 - b.toNat) :: invert bs

/-- The second pass of R55: `s <- t[i] + c`, limb `s mod 256`, carry `s div 256`, from limb 0 upward. The carry past the
last limb is discarded. -/
def addCarry : List Byte → Nat → List Byte
  | [], _ => []
  | b :: bs, c => BitVec.ofNat 8 ((b.toNat + c) % 256) :: addCarry bs ((b.toNat + c) / 256)

theorem invert_length (x : List Byte) : (invert x).length = x.length := by
  induction x with
  | nil => rfl
  | cons b bs ih => simp [invert, ih]

theorem addCarry_length (x : List Byte) (c : Nat) : (addCarry x c).length = x.length := by
  induction x generalizing c with
  | nil => rfl
  | cons b bs ih => simp [addCarry, ih]

/-- `negate`: invert every limb, then add 1 with the carry running from limb 0 upward (R55; 90_conflicts.md C3). -/
def negate {n : Nat} (x : Limbs n) : Limbs n :=
  ⟨addCarry (invert x.list) 1, by rw [addCarry_length, invert_length, x.length_eq]⟩

/-- `mag`, the magnitude, always read through `U` (R58). -/
def mag {n : Nat} (x : Limbs n) : Limbs n := if x.sign then negate x else x

/-- NEG (R56): never an error, no flag. -/
def execNeg (a : WideInt) (s : State) : Host.Outcome State Fault Refusal :=
  .next (s.respond (.wide (negate a)))

end Sys2Proof.Machine
end

