-- ==== Sys2Proof/Machine/Additive.lean ====
section
/-! DEFINITION. The wide adder, ADD and SUB (42_additive.md). -/

namespace Sys2Proof.Machine

/-- The loop of R73: `s <- a.l[i] + b.l[i] + c`, limb `s mod 256`, carry `s div 256`, from limb 0 upward. The carry out of
the last limb is discarded. -/
def addLimbs : List Byte → List Byte → Nat → List Byte
  | a :: as, b :: bs, c =>
    BitVec.ofNat 8 ((a.toNat + b.toNat + c) % 256) :: addLimbs as bs ((a.toNat + b.toNat + c) / 256)
  | [], _, _ => []
  | _ :: _, [], _ => []

theorem addLimbs_length (as bs : List Byte) (c : Nat) (h : as.length = bs.length) :
    (addLimbs as bs c).length = as.length := by
  induction as generalizing bs c with
  | nil => rfl
  | cons a as ih =>
    cases bs with
    | nil => simp at h
    | cons b bs => simp [addLimbs, ih bs _ (by simpa using h)]

/-- `add`: the carry into limb 0 is 0 (R73). -/
def add {n : Nat} (a b : Limbs n) : Limbs n :=
  ⟨addLimbs a.list b.list 0, by rw [addLimbs_length _ _ _ (a.length_eq.trans b.length_eq.symm), a.length_eq]⟩

/-- `subtract(a, b) = add(a, negate(b))` (R75; 90_conflicts.md C7). -/
def subtract {n : Nat} (a b : Limbs n) : Limbs n := add a (negate b)

/-- ADD (R74): never an error; overflow wraps silently (R80). -/
def execAdd (a b : WideInt) (s : State) : Host.Outcome State Fault Refusal :=
  .next (s.respond (.wide (add a b)))

/-- SUB (R76): never an error; overflow wraps silently (R80). -/
def execSub (a b : WideInt) (s : State) : Host.Outcome State Fault Refusal :=
  .next (s.respond (.wide (subtract a b)))

end Sys2Proof.Machine
end

