-- ==== Sys2Proof/Machine/Comparison.lean ====
section
/-! DEFINITION. The comparator: the zero test, EQ, NE, LT, LE, GT and GE (44_comparison.md). -/

namespace Sys2Proof.Machine

/-- Every limb pair is equal. -/
def equalLimbs : List Byte → List Byte → Bool
  | a :: as, b :: bs => a == b && equalLimbs as bs
  | [], [] => true
  | [], _ :: _ => false
  | _ :: _, [] => false

/-- `equals` (R97). -/
def equals {n : Nat} (a b : Limbs n) : Bool := equalLimbs a.list b.list

/-- `is_zero(x)`, which is `equals(x, ZERO)` (R96). -/
def isZero {n : Nat} (x : Limbs n) : Bool := equals x (Limbs.zero n)

/-- The scan of R99 over two limb lists given most significant limb first: at the first differing limb, whether the
left one is the smaller as an unsigned number; nothing when all limbs are equal. -/
def scan : List Byte → List Byte → Option Bool
  | a :: as, b :: bs => if a = b then scan as bs else some (decide (a.toNat < b.toNat))
  | [], _ => none
  | _ :: _, [] => none

/-- `less_than` (R99): signs first, then magnitudes from the top limb down, the outcome inverted when both operands are
negative (90_conflicts.md C4). -/
def lessThan {n : Nat} (a b : Limbs n) : Bool :=
  if a.sign ≠ b.sign then a.sign
  else
    match scan (mag a).list.reverse (mag b).list.reverse with
    | some smallerMag => if a.sign then !smallerMag else smallerMag
    | none => false

/-- EQ (R97): the outcome is the payload and no flag is set (R106). -/
def execEq (a b : WideInt) (s : State) : Host.Outcome State Fault Refusal :=
  .next (s.respond (.bool (equals a b)))

/-- NE (R98). -/
def execNe (a b : WideInt) (s : State) : Host.Outcome State Fault Refusal :=
  .next (s.respond (.bool (!equals a b)))

/-- LT (R100). -/
def execLt (a b : WideInt) (s : State) : Host.Outcome State Fault Refusal :=
  .next (s.respond (.bool (lessThan a b)))

/-- LE (R101): `not less_than(b, a)`. -/
def execLe (a b : WideInt) (s : State) : Host.Outcome State Fault Refusal :=
  .next (s.respond (.bool (!lessThan b a)))

/-- GT (R102): `less_than(b, a)`. -/
def execGt (a b : WideInt) (s : State) : Host.Outcome State Fault Refusal :=
  .next (s.respond (.bool (lessThan b a)))

/-- GE (R103): `not less_than(a, b)`. -/
def execGe (a b : WideInt) (s : State) : Host.Outcome State Fault Refusal :=
  .next (s.respond (.bool (!lessThan a b)))

end Sys2Proof.Machine
end

