-- ==== Sys2Proof/Machine/Multiplicative.lean ====
section
/-! DEFINITION. The wide multiplier and the wide divider: MUL, DIV and REM (43_multiplicative.md). -/

namespace Sys2Proof.Machine

/-! ### The multiplier -/

/-- Row `i` of R81, on the cells `acc[i] .. acc[i+SIZE-1]`: `t <- acc[i+j] + a.l[i]*b.l[j] + carry`, cell `t mod 256`,
carry `t div 256`. The cell `acc[i+SIZE]` gets the last carry. -/
def mulRow (a : Byte) : List Byte → List Byte → Nat → List Byte
  | b :: bs, x :: acc, c =>
    BitVec.ofNat 8 ((x.toNat + a.toNat * b.toNat + c) % 256)
      :: mulRow a bs acc ((x.toNat + a.toNat * b.toNat + c) / 256)
  | [], _, c => [BitVec.ofNat 8 c]
  | _ :: _, [], c => [BitVec.ofNat 8 c]

/-- The row loop of R81. `acc` holds the cells that row `i` reads, from `acc[i]` upward; after the row, cell `acc[i]` is
final and the window moves up by one. The result is the whole double-width accumulator. -/
def mulRows : List Byte → List Byte → List Byte → List Byte
  | [], _, acc => acc
  | a :: as, bs, acc =>
    match mulRow a bs acc 0 with
    | [] => []
    | lo :: window => lo :: mulRows as bs window

theorem mulRow_length (a : Byte) (bs acc : List Byte) (c : Nat) (h : bs.length = acc.length) :
    (mulRow a bs acc c).length = bs.length + 1 := by
  induction bs generalizing acc c with
  | nil => simp [mulRow]
  | cons b bs ih =>
    cases acc with
    | nil => simp at h
    | cons x acc => simp [mulRow, ih acc _ (by simpa using h)]

theorem mulRows_length (as bs acc : List Byte) (h : bs.length = acc.length) :
    (mulRows as bs acc).length = as.length + acc.length := by
  induction as generalizing acc with
  | nil => simp [mulRows]
  | cons a as ih =>
    have hr := mulRow_length a bs acc 0 h
    cases hm : mulRow a bs acc 0 with
    | nil => simp [hm] at hr
    | cons lo window =>
      rw [hm] at hr
      simp only [List.length_cons, Nat.add_right_cancel_iff] at hr
      simp only [mulRows, hm, List.length_cons, ih window hr.symm]
      omega

/-- `multiply`: the low `SIZE` limbs of the double-width product (R81). -/
def multiply {n : Nat} (a b : Limbs n) : Limbs n :=
  ⟨(mulRows a.list b.list (List.replicate n 0)).take n, by
    rw [List.length_take, mulRows_length _ _ _ (by simp [b.length_eq])]
    simp [a.length_eq]⟩

/-! ### The unsigned divider core -/

/-- The loop of R84 from bit `k-1` down to bit 0: shift the next bit of `u` into the partial remainder and subtract `d`
when it fits. Bit `k` of the quotient is set by shifting it in, since `k` descends. -/
def udivLoop (u d : Nat) : Nat → Nat → Nat → Nat × Nat
  | 0, q, rem => (q, rem)
  | k + 1, q, rem =>
    if d ≤ 2 * rem + (u.testBit k).toNat then
      udivLoop u d k (2 * q + 1) (2 * rem + (u.testBit k).toNat - d)
    else udivLoop u d k (2 * q) (2 * rem + (u.testBit k).toNat)

/-- `udivrem(n, d)`: bit-serial restoring division of the unsigned readings, most significant bit first (R84). -/
def udivrem {n : Nat} (x d : Limbs n) : Limbs n × Limbs n :=
  (Limbs.wide n (udivLoop x.U d.U (8 * n) 0 0).1, Limbs.wide n (udivLoop x.U d.U (8 * n) 0 0).2)

/-! ### DIV and REM -/

/-- `divide`, for a nonzero divisor: the quotient of the magnitudes, negated when the signs differ (R86). -/
def divide {n : Nat} (a b : Limbs n) : Limbs n :=
  if a.sign ^^ b.sign then negate (udivrem (mag a) (mag b)).1 else (udivrem (mag a) (mag b)).1

/-- `remainder`, for a nonzero divisor: the remainder of the magnitudes with the sign of the dividend (R88). -/
def remainder {n : Nat} (a b : Limbs n) : Limbs n :=
  if a.sign then negate (udivrem (mag a) (mag b)).2 else (udivrem (mag a) (mag b)).2

/-- MUL (R82): never an error; the high half is dropped silently. -/
def execMul (a b : WideInt) (s : State) : Host.Outcome State Fault Refusal :=
  .next (s.respond (.wide (multiply a b)))

/-- DIV (R87): the zero test is made on the divisor as given, before any sign handling (R90). -/
def execDiv (a b : WideInt) (s : State) : Host.Outcome State Fault Refusal :=
  if isZero b then .next (s.raise .divisionByZero) else .next (s.respond (.wide (divide a b)))

/-- REM (R89): the zero test is made on the divisor as given, before any sign handling (R90). -/
def execRem (a b : WideInt) (s : State) : Host.Outcome State Fault Refusal :=
  if isZero b then .next (s.raise .divisionByZero) else .next (s.respond (.wide (remainder a b)))

end Sys2Proof.Machine
end

