-- ==== Sys2Proof/Machine/Operands.lean ====
section
/-! DEFINITION. How the operands that are no WideInt are read (30_encoding.md rule R44): the signed native integer of
FROMINT and the characters of a decimal text. The operands `a` and `b` are used as they stand. -/

namespace Sys2Proof.Machine

/-- The value of `i`: `i[30:0] - 2^31 * i[31]` (R44). -/
def intValue (i : BitVec 32) : Int := (i.toNat % 2 ^ 31 : Nat) - 2 ^ 31 * ((i.toNat >>> 31) % 2 : Nat)

/-- The ASCII code of `'-'` (decision D5; R65). -/
def minusChar : Byte := 0x2D

/-- The ASCII code of `'0'` (decision D5; R65). -/
def zeroChar : Byte := 0x30

/-- The ASCII code of `'9'` (decision D5; R65). -/
def nineChar : Byte := 0x39

/-- Whether a byte is a decimal digit `'0'` .. `'9'` (R65). -/
def isDigit (c : Byte) : Bool := zeroChar.toNat ≤ c.toNat && c.toNat ≤ nineChar.toNat

/-- The value of a digit, `s[k] - '0'` (R64, R67). -/
def digitValue (c : Byte) : Nat := c.toNat - zeroChar.toNat

/-- The character of a digit, `'0' + d` (R71). -/
def digitChar (d : Byte) : Byte := zeroChar + d

end Sys2Proof.Machine
end

