-- ==== Sys2Proof/Machine/Conversion.lean ====
section
/-! DEFINITION. The integer loader and the decimal codec: FROMINT, FROMDEC and TODEC (41_construction_conversion.md). -/

namespace Sys2Proof.Machine

/-- The low 4 limbs hold a magnitude of at most 32 bits, little-endian; the other limbs are zero (R30, R61). -/
def loadMagnitude (n m : Nat) : Limbs n :=
  Limbs.ofFn n fun k => if k < 4 then BitVec.ofNat 8 (m / 256 ^ k) else 0

/-- `from_integer` (R61, R62): the magnitude is an unsigned 32-bit number, also for `-2^31` (decision D14); a negative
input is complemented over the full width. -/
def fromInteger (n : Nat) (i : BitVec 32) : Limbs n :=
  if intValue i < 0 then negate (loadMagnitude n (intValue i).natAbs)
  else loadMagnitude n (intValue i).natAbs

/-- One digit of the accumulation: `acc <- add(multiply(acc, TEN), wide(d))` (R67). -/
def accumulate {n : Nat} (acc : Limbs n) (c : Byte) : Limbs n :=
  add (multiply acc (Limbs.ten n)) (Limbs.wide n (digitValue c))

/-- Whether a text starts with the optional sign `'-'` (R64). -/
def isNegated : List Byte → Bool
  | c :: _ => c == minusChar
  | [] => false

/-- The bytes of a text after the optional sign. -/
def afterSign (s : List Byte) : List Byte := if isNegated s then s.tail else s

/-- `from_decimal` (R64): the whole text is checked first, so that no error comes with a partial value; nothing for a
malformed text (R66). A numeral outside the range wraps (R68, decision D9). -/
def fromDecimal (n : Nat) (s : List Byte) : Option (Limbs n) :=
  if (afterSign s).isEmpty then none
  else if (afterSign s).all isDigit then
    if isNegated s then some (negate ((afterSign s).foldl accumulate (Limbs.zero n)))
    else some ((afterSign s).foldl accumulate (Limbs.zero n))
  else none

/-- The digit loop of R71: the remainder by ten goes in front of the digits found so far, the quotient is divided next,
until nothing is left. The loop runs once per digit (R130); the bound `8*n` given by `toDecimal` is never reached. -/
def decimalDigits {n : Nat} : Nat → Limbs n → List Byte → List Byte
  | 0, _, digits => digits
  | fuel + 1, m, digits =>
    if isZero m then digits
    else decimalDigits fuel (udivrem m (Limbs.ten n)).1 (digitChar ((udivrem m (Limbs.ten n)).2.l 0) :: digits)

/-- `to_decimal` (R71): the unsigned divider core works on the magnitude (90_conflicts.md C6). -/
def toDecimal {n : Nat} (x : Limbs n) : List Byte :=
  if isZero x then [zeroChar]
  else if x.sign then minusChar :: decimalDigits (8 * n) (mag x) []
  else decimalDigits (8 * n) (mag x) []

/-- FROMINT (R60): never an error. -/
def execFromint (i : BitVec 32) (s : State) : Host.Outcome State Fault Refusal :=
  .next (s.respond (.wide (fromInteger Config.SIZE i)))

/-- FROMDEC (R64): InvalidFormat for a malformed text, with no partial value. -/
def execFromdec (t : List Byte) (s : State) : Host.Outcome State Fault Refusal :=
  match fromDecimal Config.SIZE t with
  | some r => .next (s.respond (.wide r))
  | none => .next (s.raise .invalidFormat)

/-- TODEC (R70): never an error. -/
def execTodec (a : WideInt) (s : State) : Host.Outcome State Fault Refusal :=
  .next (s.respond (.text (toDecimal a)))

end Sys2Proof.Machine
end

