-- ==== Sys2Proof/Machine/Reserved.lean ====
section
/-! DEFINITION. The reserved operation code 0xF (30_encoding.md rule R42, 60_exceptions.md rule R111). -/

namespace Sys2Proof.Machine

/-- The unit performs no operation and responds with status IllegalOp and no payload (R42). -/
def execReservedF (s : State) : Host.Outcome State Fault Refusal := .next (s.raise .illegalOp)

end Sys2Proof.Machine
end

