-- ==== Sys2Proof/Syntax.lean ====
section
/-! DEFINITION. The requests of the unit as syntax: one constructor for each row of spec/opcode_table.json
(30_encoding.md rule R41), each with exactly the fields its format uses (R39). -/

namespace Sys2Proof

/-- A request with its operands. A field that the format of the operation does not have is absent (R39, decision
D16). The text of FROMDEC carries its own length `slen` (R38). -/
inductive Instr where
  /-- 0x0, format U (R56) -/
  | neg (a : WideInt)
  /-- 0x1, format I: the 32 bits of a signed native integer (R60) -/
  | fromint (i : BitVec 32)
  /-- 0x2, format T: the text, first character first (R64, R31) -/
  | fromdec (s : List Byte)
  /-- 0x3, format U (R70) -/
  | todec (a : WideInt)
  /-- 0x4, format B (R74) -/
  | add (a b : WideInt)
  /-- 0x5, format B: minuend, subtrahend (R76) -/
  | sub (a b : WideInt)
  /-- 0x6, format B (R82) -/
  | mul (a b : WideInt)
  /-- 0x7, format B: dividend, divisor (R87) -/
  | div (a b : WideInt)
  /-- 0x8, format B: dividend, divisor (R89) -/
  | rem (a b : WideInt)
  /-- 0x9, format B (R97) -/
  | eq (a b : WideInt)
  /-- 0xA, format B (R98) -/
  | ne (a b : WideInt)
  /-- 0xB, format B (R100) -/
  | lt (a b : WideInt)
  /-- 0xC, format B (R101) -/
  | le (a b : WideInt)
  /-- 0xD, format B (R102) -/
  | gt (a b : WideInt)
  /-- 0xE, format B (R103) -/
  | ge (a b : WideInt)
  /-- 0xF, format X: the reserved code (R42) -/
  | reservedF
deriving DecidableEq, Repr

end Sys2Proof
end

