-- ==== Sys2Proof/Machine/Dispatch.lean ====
section
/-! DEFINITION. The unit's one function (30_encoding.md rule R49): one arm per operation code. -/

namespace Sys2Proof.Machine

def exec (i : Instr) (s : State) : Host.Outcome State Fault Refusal :=
  match i with
  | .neg a => Sys2Proof.Machine.execNeg a s
  | .fromint n => Sys2Proof.Machine.execFromint n s
  | .fromdec t => Sys2Proof.Machine.execFromdec t s
  | .todec a => Sys2Proof.Machine.execTodec a s
  | .add a b => Sys2Proof.Machine.execAdd a b s
  | .sub a b => Sys2Proof.Machine.execSub a b s
  | .mul a b => Sys2Proof.Machine.execMul a b s
  | .div a b => Sys2Proof.Machine.execDiv a b s
  | .rem a b => Sys2Proof.Machine.execRem a b s
  | .eq a b => Sys2Proof.Machine.execEq a b s
  | .ne a b => Sys2Proof.Machine.execNe a b s
  | .lt a b => Sys2Proof.Machine.execLt a b s
  | .le a b => Sys2Proof.Machine.execLe a b s
  | .gt a b => Sys2Proof.Machine.execGt a b s
  | .ge a b => Sys2Proof.Machine.execGe a b s
  | .reservedF => Sys2Proof.Machine.execReservedF s

end Sys2Proof.Machine
end

