-- ==== Sys2Proof/WellFormed.lean ====
section
/-! DEFINITION. Which requests can be presented at all. A WideInt has its width by construction and every value of
`a`, `b` and `i` is legal (30_encoding.md rule R42), so one check is left: the text length must fit `slen`. -/

namespace Sys2Proof

/-- A text fits a request when its length fits the 16-bit field `slen` (R9, R38; 93_implementation_defined.md U11). -/
def textFits (s : List Byte) : Bool := s.length < 2 ^ Config.LEN_BITS

/-- A well-formed request: one that the fields of R38 can carry. -/
def Instr.wellFormed : Instr → Bool
  | .fromdec s => textFits s
  | .neg _ => true
  | .fromint _ => true
  | .todec _ => true
  | .add _ _ => true
  | .sub _ _ => true
  | .mul _ _ => true
  | .div _ _ => true
  | .rem _ _ => true
  | .eq _ _ => true
  | .ne _ _ => true
  | .lt _ _ => true
  | .le _ _ => true
  | .gt _ _ => true
  | .ge _ _ => true
  | .reservedF => true

end Sys2Proof
end

