-- ==== Sys2Proof/Decode.lean ====
section
/-! DEFINITION. The packed request (30_encoding.md rules R38 to R44, R50): operation codes, formats, field positions, the
decoder, total on every packet, and the encoder written from the same table. -/

namespace Sys2Proof

/-- The sixteen operation codes of R41: fifteen operations and the reserved code. -/
inductive Op where
  | neg | fromint | fromdec | todec | add | sub | mul | div | rem | eq | ne | lt | le | gt | ge | reservedF
deriving DecidableEq, Repr

/-- The request formats of R39 and R40. -/
inductive Format where
  /-- unary wide: `op`, `a` -/
  | U
  /-- binary wide: `op`, `a`, `b` -/
  | B
  /-- integer: `op`, `i` -/
  | I
  /-- text: `op`, `slen`, `s` -/
  | T
  /-- the reserved code: `op` alone -/
  | X
deriving DecidableEq, Repr

/-- The kind of payload an operation gives (R41, R45). -/
inductive PayloadKind where
  | wide | bool | text
deriving DecidableEq, Repr

/-- The operation code of R41. -/
def Op.code : Op → Nat
  | .neg => 0x0
  | .fromint => 0x1
  | .fromdec => 0x2
  | .todec => 0x3
  | .add => 0x4
  | .sub => 0x5
  | .mul => 0x6
  | .div => 0x7
  | .rem => 0x8
  | .eq => 0x9
  | .ne => 0xA
  | .lt => 0xB
  | .le => 0xC
  | .gt => 0xD
  | .ge => 0xE
  | .reservedF => 0xF

/-- The operation of a 4-bit code. The last line is the code 0xF, the one value left (R42, R43; `Op.code_ofCode`). -/
def Op.ofCode (code : Nat) : Op :=
  match code with
  | 0x0 => .neg
  | 0x1 => .fromint
  | 0x2 => .fromdec
  | 0x3 => .todec
  | 0x4 => .add
  | 0x5 => .sub
  | 0x6 => .mul
  | 0x7 => .div
  | 0x8 => .rem
  | 0x9 => .eq
  | 0xA => .ne
  | 0xB => .lt
  | 0xC => .le
  | 0xD => .gt
  | 0xE => .ge
  | _ => .reservedF

/-- No two codes share an operation and none falls through to a neighbour (R43). -/
theorem Op.code_ofCode : ∀ c < 16, (Op.ofCode c).code = c := by decide

theorem Op.ofCode_code (o : Op) : Op.ofCode o.code = o := by cases o <;> rfl

theorem Op.code_lt (o : Op) : o.code < 16 := by cases o <;> decide

/-- The format of an operation: the operation code alone selects it (R39, R41). -/
def Op.format : Op → Format
  | .neg => .U
  | .fromint => .I
  | .fromdec => .T
  | .todec => .U
  | .add => .B
  | .sub => .B
  | .mul => .B
  | .div => .B
  | .rem => .B
  | .eq => .B
  | .ne => .B
  | .lt => .B
  | .le => .B
  | .gt => .B
  | .ge => .B
  | .reservedF => .X

/-- The payload of an OK response, fixed by the operation; the reserved code has none (R41, R45). -/
def Op.payloadKind : Op → Option PayloadKind
  | .neg => some .wide
  | .fromint => some .wide
  | .fromdec => some .wide
  | .todec => some .text
  | .add => some .wide
  | .sub => some .wide
  | .mul => some .wide
  | .div => some .wide
  | .rem => some .wide
  | .eq => some .bool
  | .ne => some .bool
  | .lt => some .bool
  | .le => some .bool
  | .gt => some .bool
  | .ge => some .bool
  | .reservedF => none

/-- The operation of a request. -/
def Instr.op : Instr → Op
  | .neg _ => .neg
  | .fromint _ => .fromint
  | .fromdec _ => .fromdec
  | .todec _ => .todec
  | .add _ _ => .add
  | .sub _ _ => .sub
  | .mul _ _ => .mul
  | .div _ _ => .div
  | .rem _ _ => .rem
  | .eq _ _ => .eq
  | .ne _ _ => .ne
  | .lt _ _ => .lt
  | .le _ _ => .le
  | .gt _ _ => .gt
  | .ge _ _ => .ge
  | .reservedF => .reservedF

/-- The total length in bits of a request of a format, `slen` the length of its text (R40). -/
def Format.bits (slen : Nat) : Format → Nat
  | .U => 4 + Config.W
  | .B => 4 + 2 * Config.W
  | .I => 36
  | .T => 20 + 8 * slen
  | .X => 4

/-! ### Fields of a packet -/

/-- The field of `n` bits from bit `lo` upward, `v[lo+n-1:lo]` of 00_scope.md section 5. -/
def Packet.field (p : Packet) (lo n : Nat) : Nat := (p.value >>> lo) % 2 ^ n

/-- `REQ[3:0] = op` (R40). -/
def Packet.op (p : Packet) : Op := Op.ofCode (p.field 0 4)

/-- A WideInt field from bit `lo` upward: limb `k` in bits `lo+8k+7 .. lo+8k` (R29, R40). -/
def Packet.wideAt (p : Packet) (lo : Nat) : WideInt :=
  Limbs.ofFn Config.SIZE fun k => BitVec.ofNat 8 (p.field (8 * k + lo) 8)

/-- `a`: limb `k` is `REQ[8k+11:8k+4]` (R40, formats U and B). -/
def Packet.a (p : Packet) : WideInt := p.wideAt 4

/-- `b`: limb `k` is `REQ[W+8k+11:W+8k+4]` (R40, format B). -/
def Packet.b (p : Packet) : WideInt := p.wideAt (Config.W + 4)

/-- `REQ[35:4] = i` (R40, format I). -/
def Packet.i (p : Packet) : BitVec 32 := BitVec.ofNat 32 (p.field 4 32)

/-- `REQ[19:4] = slen`, unsigned (R40, R44, format T). -/
def Packet.slen (p : Packet) : Nat := p.field 4 16

/-- The text: `s[k]` is `REQ[8k+27:8k+20]` for `k` from 0 to `slen-1` (R40, format T). -/
def Packet.s (p : Packet) : List Byte :=
  (List.range p.slen).map fun k => BitVec.ofNat 8 (p.field (8 * k + 20) 8)

/-! ### The decoder -/

/-- Why a packet is no request: it lacks bits that its format has. R122 obliges the host to present every field. -/
inductive DecodeError where
  /-- fewer than the 4 bits of `op` -/
  | noOperationCode
  /-- format T with fewer than the 20 bits that hold `op` and `slen` -/
  | noTextLength
  /-- fewer bits than the operands of the format take -/
  | operandsMissing
deriving DecidableEq, Repr

/-- What a packet lacks, found as R50 finds the length: from `op`, and for format T from `slen`. Bits above the length
of the format are allowed and never read (R39; 93_implementation_defined.md U4). -/
def Packet.missing (p : Packet) : Option DecodeError :=
  if p.length < 4 then some .noOperationCode
  else if p.op.format = .T ∧ p.length < 20 then some .noTextLength
  else if p.length < p.op.format.bits p.slen then some .operandsMissing
  else none

/-- The request that a complete packet with a given operation carries (R41). -/
def Packet.request (p : Packet) : Op → Instr
  | .neg => .neg p.a
  | .fromint => .fromint p.i
  | .fromdec => .fromdec p.s
  | .todec => .todec p.a
  | .add => .add p.a p.b
  | .sub => .sub p.a p.b
  | .mul => .mul p.a p.b
  | .div => .div p.a p.b
  | .rem => .rem p.a p.b
  | .eq => .eq p.a p.b
  | .ne => .ne p.a p.b
  | .lt => .lt p.a p.b
  | .le => .le p.a p.b
  | .gt => .gt p.a p.b
  | .ge => .ge p.a p.b
  | .reservedF => .reservedF

/-- The request a packet carries, or what it lacks. Every complete packet is a request (R42). -/
def decode (p : Packet) : Except DecodeError Instr :=
  match p.missing with
  | some e => .error e
  | none => .ok (p.request p.op)

/-! ### The encoder -/

/-- Format U: `op` at bit 0 and `a` at bit 4 (R40). -/
def encodeU (o : Op) (a : WideInt) : Packet :=
  ⟨Format.bits 0 .U, o.code + 2 ^ 4 * a.U⟩

/-- Format B: `op` at bit 0, `a` at bit 4 and `b` at bit `W+4` (R40). -/
def encodeB (o : Op) (a b : WideInt) : Packet :=
  ⟨Format.bits 0 .B, o.code + 2 ^ 4 * (a.U + Config.MODULUS * b.U)⟩

/-- Format I: `op` at bit 0 and `i` at bit 4 (R40). -/
def encodeI (o : Op) (i : BitVec 32) : Packet :=
  ⟨Format.bits 0 .I, o.code + 2 ^ 4 * i.toNat⟩

/-- Format T: `op` at bit 0, `slen` at bit 4 and the text from bit 20, its first byte lowest (R40). -/
def encodeT (o : Op) (s : List Byte) : Packet :=
  ⟨Format.bits s.length .T, o.code + 2 ^ 4 * (s.length + 2 ^ 16 * limbsToNat s)⟩

/-- Format X: `op` alone (R40). -/
def encodeX (o : Op) : Packet := ⟨Format.bits 0 .X, o.code⟩

/-- The packed request (R40, R41). -/
def encode : Instr → Packet
  | .neg a => encodeU .neg a
  | .fromint i => encodeI .fromint i
  | .fromdec s => encodeT .fromdec s
  | .todec a => encodeU .todec a
  | .add a b => encodeB .add a b
  | .sub a b => encodeB .sub a b
  | .mul a b => encodeB .mul a b
  | .div a b => encodeB .div a b
  | .rem a b => encodeB .rem a b
  | .eq a b => encodeB .eq a b
  | .ne a b => encodeB .ne a b
  | .lt a b => encodeB .lt a b
  | .le a b => encodeB .le a b
  | .gt a b => encodeB .gt a b
  | .ge a b => encodeB .ge a b
  | .reservedF => encodeX .reservedF

/-! ### The opcode table's numbering of words -/

/-- The length in bits of the longest request: format T with `slen = 65535` (R40, R9). -/
def maxRequestBits : Nat := Format.bits (2 ^ Config.LEN_BITS - 1) .T

/-- The packet of a word of spec/opcode_table.json: bit `k` of `w` is `REQ[k]`, and every bit from `nbits` up to the
longest request is 0. -/
def tablePacket (nbits w : Nat) : Packet := ⟨maxRequestBits, w % 2 ^ nbits⟩

/-- The request the decoder reads from a word of the opcode table. -/
def decodeTableWord (nbits w : Nat) : Option Instr :=
  match decode (tablePacket nbits w) with
  | .ok i => some i
  | .error _ => none

end Sys2Proof
end

