-- ==== Sys2Proof/Machine/Port.lean ====
section
/-! DEFINITION. The request port: how the unit samples the packet the host presents (20_memory.md rule R32). -/

namespace Sys2Proof.Machine

/-- The request of a presented packet, taken whole. A packet that lacks bits of its format is refused: the host must
present a complete request (R122; assumption log 2). -/
def sample (p : Packet) : Except Refusal Instr :=
  match decode p with
  | .ok i => .ok i
  | .error _ => .error .incompleteRequest

/-- The host's plan with one more request, presented first. -/
def State.present (s : State) (p : Packet) : State := { s with script := .request p :: s.script }

/-- The host's plan after its first input has been taken. -/
def State.taken (s : State) : State := { s with script := s.script.tail }

end Sys2Proof.Machine
end

