-- ==== Sys2Proof/Machine/Step.lean ====
section
/-! DEFINITION. One step of the unit: a transaction or a reset (10_state.md rule R22), each atomic (70_reset_and_hazards.md
rules R123, R128). -/

namespace Sys2Proof.Machine

/-- What the host does next happens: a request is sampled and executed, `RESP <- some(exec(req))` (R49); a reset empties
`RESP` (R123). When the host does nothing, nothing happens in the unit (R115). -/
def step (s : State) : Host.Outcome State Fault Refusal :=
  match s.script with
  | [] => .next s
  | .reset :: _ => .next s.taken.applyReset
  | .request p :: _ =>
    match sample p with
    | .ok i => exec i s.taken
    | .error r => .refused r

/-- `s` with the opcode table's word `w` presented first: the very next step runs it. -/
def State.withFetchWord (s : State) (nbits w : Nat) : State := s.present (tablePacket nbits w)

end Sys2Proof.Machine
end

