-- ==== Sys2Proof/Machine/Flags.lean ====
section
/-! DEFINITION. Status and flags. The unit has no flags and no condition codes (10_state.md rule R21): the only status a
transaction yields is the 2-bit code of its response (30_encoding.md rule R47, 60_exceptions.md rule R114). -/

namespace Sys2Proof.Machine

/-- The status code of an error (R47). -/
def ErrorCode.code : ErrorCode → Nat
  | .divisionByZero => 1
  | .invalidFormat => 2
  | .illegalOp => 3

/-- The error of a status code; 0 is OK and no error (R47, R114). -/
def ErrorCode.ofCode (code : Nat) : Option ErrorCode :=
  match code with
  | 1 => some .divisionByZero
  | 2 => some .invalidFormat
  | 3 => some .illegalOp
  | _ => none

/-- The status code of a response; 0 is OK (R47). -/
def Response.status : Response → Nat
  | .ok _ => 0
  | .error e => e.code

/-- How a HOST finds the signed overflow that ADD never reports: the operands' signs agree and the sum's sign differs
(R80). No bit of a response tells it. -/
def addOverflows {n : Nat} (a b : Limbs n) : Bool := a.sign == b.sign && (add a b).sign != a.sign

end Sys2Proof.Machine
end

