-- ==== Sys2Proof/Machine/Response.lean ====
section
/-! DEFINITION. The response port: the packed response (30_encoding.md rules R45, R46) and how the host reads it
(60_exceptions.md rule R122). -/

namespace Sys2Proof.Machine

/-- The kind of a payload (R45). -/
def Payload.kind : Payload → PayloadKind
  | .wide _ => .wide
  | .bool _ => .bool
  | .text _ => .text

/-- The packed response: the status in bits 1..0; when it is OK the payload follows from bit 2, for TEXT the length in
bits 17..2 and byte `k` in bits `8k+25 .. 8k+18` (R46). -/
def encodeResponse : Response → Packet
  | .error e => ⟨2, e.code⟩
  | .ok (.wide r) => ⟨2 + Config.W, 2 ^ 2 * r.U⟩
  | .ok (.bool c) => ⟨3, 2 ^ 2 * c.toNat⟩
  | .ok (.text t) => ⟨18 + 8 * t.length, 2 ^ 2 * (t.length + 2 ^ 16 * limbsToNat t)⟩

/-- `RSP[17:2] = tlen` (R46). -/
def textLength (p : Packet) : Nat := p.field 2 16

/-- The payload the host reads from an OK response, by the kind its own request implies: the response carries no tag for
it (R45, R122). -/
def readPayload (p : Packet) : PayloadKind → Payload
  | .wide => .wide (p.wideAt 2)
  | .bool => .bool (p.field 2 1 == 1)
  | .text => .text ((List.range (textLength p)).map fun k => BitVec.ofNat 8 (p.field (8 * k + 18) 8))

/-- The host's reading of a packed response to a request of an operation. From a response whose status is not OK no payload
is taken (R110, R122); an OK response belongs to an operation with a payload (R45). -/
def readResponse (o : Op) (p : Packet) : Option Response :=
  match ErrorCode.ofCode (p.field 0 2) with
  | some e => some (.error e)
  | none => o.payloadKind.map fun k => .ok (readPayload p k)

/-- The response port: nothing while `RESP` is empty, otherwise the whole packed response (R22, R32, R124). Reading it
changes nothing (R34). -/
def State.port (s : State) : Option Packet := s.resp.map encodeResponse

end Sys2Proof.Machine
end

