-- ==== Sys2Proof/Machine/Script.lean ====
section
/-! DEFINITION. The host's assembler notation and scripts (30_encoding.md rules R51 to R54): the operand forms, the
pseudo-instructions, result names, what makes a line ill formed, the text of a line, and issuing a script. All of it is
on the host's side: the unit sees only the requests. -/

namespace Sys2Proof.Machine

/-- How a WideInt operand is written (R52). -/
inductive WideOperand where
  /-- a decimal numeral with optional leading `-` -/
  | numeral (v : Int)
  /-- the name `MIN` -/
  | min
  /-- the name `MAX` -/
  | max
  /-- a limb list, limb 0 first -/
  | limbs (ls : List Byte)
  /-- `$n`: the WIDE payload of the response to line `n`, lines counted from 1 -/
  | result (n : Nat)
deriving DecidableEq, Repr

/-- A line of a script (R51, R53). -/
inductive Line where
  /-- format U: mnemonic and one operand -/
  | unary (o : Op) (a : WideOperand)
  /-- format B: mnemonic and two operands -/
  | binary (o : Op) (a b : WideOperand)
  /-- `FROMINT #n` -/
  | integer (n : Int)
  /-- `FROMDEC "text"` -/
  | text (s : List Byte)
  /-- the reserved code, `(op = 0xF)` -/
  | reserved
  /-- the pseudo-instruction `ZERO`, `FROMINT #0` -/
  | zero
  /-- the pseudo-instruction `ONE`, `FROMINT #1` -/
  | one
deriving DecidableEq, Repr

/-- Why the assembler refuses a line; no such line is a request (R54). -/
inductive ScriptError where
  /-- a numeral outside `MIN .. MAX`, or `#n` outside the signed 32-bit range (R51, R52) -/
  | outOfRange
  /-- a limb list that has not `SIZE` limbs (R52) -/
  | notSizeLimbs
  /-- `$n` where line `n` gave no WIDE payload (R54) -/
  | noWideResult
  /-- a mnemonic with the operands of another format (R51) -/
  | wrongFormat
  /-- a text that `slen` cannot count (R9) -/
  | textTooLong
  /-- the unit gave no response to the line's request; no assembled line brings this about -/
  | noResponse
deriving DecidableEq, Repr

/-- The value an operand stands for, given the responses to the lines so far (R52, R54). -/
def WideOperand.value (results : List Response) : WideOperand → Except ScriptError WideInt
  | .numeral v =>
    if Config.MIN ≤ v ∧ v ≤ Config.MAX then .ok (Limbs.ofInt Config.SIZE v) else .error .outOfRange
  | .min => .ok WideInt.MIN
  | .max => .ok WideInt.MAX
  | .limbs ls => if h : ls.length = Config.SIZE then .ok ⟨ls, h⟩ else .error .notSizeLimbs
  | .result 0 => .error .noWideResult
  | .result (n + 1) =>
    match results[n]? with
    | some (.ok (.wide r)) => .ok r
    | some (.ok (.bool _)) => .error .noWideResult
    | some (.ok (.text _)) => .error .noWideResult
    | some (.error _) => .error .noWideResult
    | none => .error .noWideResult

/-- The request of a unary line (R51, format U). -/
def assembleUnary (a : WideInt) : Op → Except ScriptError Instr
  | .neg => .ok (.neg a)
  | .todec => .ok (.todec a)
  | .fromint | .fromdec | .add | .sub | .mul | .div | .rem | .eq | .ne | .lt | .le | .gt | .ge | .reservedF =>
    .error .wrongFormat

/-- The request of a binary line: the first operand is `a`, the second `b` (R51, format B). -/
def assembleBinary (a b : WideInt) : Op → Except ScriptError Instr
  | .add => .ok (.add a b)
  | .sub => .ok (.sub a b)
  | .mul => .ok (.mul a b)
  | .div => .ok (.div a b)
  | .rem => .ok (.rem a b)
  | .eq => .ok (.eq a b)
  | .ne => .ok (.ne a b)
  | .lt => .ok (.lt a b)
  | .le => .ok (.le a b)
  | .gt => .ok (.gt a b)
  | .ge => .ok (.ge a b)
  | .neg | .fromint | .fromdec | .todec | .reservedF => .error .wrongFormat

/-- The request a line stands for, given the responses to the lines before it (R51 to R54). -/
def Line.assemble (results : List Response) : Line → Except ScriptError Instr
  | .unary o a =>
    match a.value results with
    | .ok x => assembleUnary x o
    | .error e => .error e
  | .binary o a b =>
    match a.value results, b.value results with
    | .ok x, .ok y => assembleBinary x y o
    | .error e, _ => .error e
    | .ok _, .error e => .error e
  | .integer n =>
    if -(2 ^ 31 : Int) ≤ n ∧ n ≤ 2 ^ 31 - 1 then .ok (.fromint (BitVec.ofInt 32 n)) else .error .outOfRange
  | .text s => if textFits s then .ok (.fromdec s) else .error .textTooLong
  | .reserved => .ok .reservedF
  | .zero => .ok (.fromint 0)
  | .one => .ok (.fromint 1)

/-- The host issues one request and the unit answers it. -/
def issue (i : Instr) (s : State) : Host.Outcome State Fault Refusal := step (s.present (encode i))

/-- The host issues the lines of a script in order and keeps the responses (R54). An ill-formed script is refused. -/
def runScript : List Line → State → List Response → Except ScriptError (State × List Response)
  | [], s, results => .ok (s, results)
  | line :: lines, s, results =>
    match line.assemble results with
    | .error e => .error e
    | .ok i =>
      match issue i s with
      | .next t =>
        match t.resp with
        | some r => runScript lines t (results ++ [r])
        | none => .error .noResponse
      | .fault _ => .error .noResponse
      | .refused _ => .error .noResponse

/-! ### The text of a line (R51, R52) -/

/-- The mnemonics of R41, upper case (R51). -/
def mnemonicChars : Op → List Char
  | .neg => ['N', 'E', 'G']
  | .fromint => ['F', 'R', 'O', 'M', 'I', 'N', 'T']
  | .fromdec => ['F', 'R', 'O', 'M', 'D', 'E', 'C']
  | .todec => ['T', 'O', 'D', 'E', 'C']
  | .add => ['A', 'D', 'D']
  | .sub => ['S', 'U', 'B']
  | .mul => ['M', 'U', 'L']
  | .div => ['D', 'I', 'V']
  | .rem => ['R', 'E', 'M']
  | .eq => ['E', 'Q']
  | .ne => ['N', 'E']
  | .lt => ['L', 'T']
  | .le => ['L', 'E']
  | .gt => ['G', 'T']
  | .ge => ['G', 'E']
  | .reservedF => ['(', 'o', 'p', ' ', '=', ' ', '0', 'x', 'F', ')']

/-- A decimal numeral with optional leading `-`. -/
def numeralChars (v : Int) : List Char :=
  if v < 0 then '-' :: Nat.toDigits 10 v.natAbs else Nat.toDigits 10 v.natAbs

/-- A hexadecimal digit, upper case. -/
def hexChar (d : Nat) : Char := if d < 10 then Char.ofNat (48 + d) else Char.ofNat (55 + d)

/-- Two hexadecimal digits. -/
def hexByte (b : Byte) : List Char := [hexChar (b.toNat / 16), hexChar (b.toNat % 16)]

/-- A limb list in the notation of 00_scope.md section 5, every limb written out. -/
def limbListChars (ls : List Byte) : List Char :=
  [Char.ofNat 0x7B] ++ [' '].intercalate (ls.map hexByte) ++ [Char.ofNat 0x7D]

/-- A byte between the quotes of a text: printable ASCII as itself, any other byte and the double quote as `\xHH` (R51). -/
def textChar (c : Byte) : List Char :=
  if 0x20 ≤ c.toNat ∧ c.toNat ≤ 0x7E ∧ c.toNat ≠ 0x22 then [Char.ofNat c.toNat]
  else ['\\', 'x'] ++ hexByte c

/-- The text of an operand (R52). -/
def WideOperand.chars : WideOperand → List Char
  | .numeral v => numeralChars v
  | .min => ['M', 'I', 'N']
  | .max => ['M', 'A', 'X']
  | .limbs ls => limbListChars ls
  | .result n => '$' :: Nat.toDigits 10 n

/-- The text of a line: the mnemonic, then the operands separated by commas (R51, R53). -/
def Line.chars : Line → List Char
  | .unary o a => mnemonicChars o ++ [' '] ++ a.chars
  | .binary o a b => mnemonicChars o ++ [' '] ++ a.chars ++ [',', ' '] ++ b.chars
  | .integer n => mnemonicChars .fromint ++ [' ', '#'] ++ numeralChars n
  | .text s => mnemonicChars .fromdec ++ [' ', '"'] ++ s.flatMap textChar ++ ['"']
  | .reserved => mnemonicChars .reservedF
  | .zero => ['Z', 'E', 'R', 'O']
  | .one => ['O', 'N', 'E']

end Sys2Proof.Machine
end

