-- ==== Sys2Proof/Machine/System.lean ====
section
/-! DEFINITION. Several units (60_exceptions.md rule R121): each has its own `RESP` and they share nothing. -/

namespace Sys2Proof.Machine

/-- Unit `k` of a list of units takes its step; every other unit stays as it is. Nothing when there is no such unit or
its host broke the protocol. -/
def stepUnit (units : List State) (k : Nat) : Option (List State) :=
  match units[k]? with
  | none => none
  | some s =>
    match step s with
    | .next t => some (units.set k t)
    | .fault _ => none
    | .refused _ => none

end Sys2Proof.Machine
end

