-- ==== Sys2Proof/Safety.lean ====
section
/-! DEFINITION. The terms that statements about the unit use: decimal numerals, the response to a request, what a host
input does to `RESP`, the host's obligation, and the invariant of the state. -/

namespace Sys2Proof

/-! ### Decimal numerals, as the spec speaks of them -/

/-- One or more decimal digits `'0'` .. `'9'` (R65). -/
def DigitString (ds : List Byte) : Prop := ds ≠ [] ∧ ∀ c ∈ ds, 0x30 ≤ c.toNat ∧ c.toNat ≤ 0x39

/-- A well-formed decimal numeral: an optional `'-'` followed by one or more digits and nothing else (R65). -/
def WellFormedNumeral (s : List Byte) : Prop := ∃ ds, DigitString ds ∧ (s = ds ∨ s = 0x2D :: ds)

/-- The natural number a digit string denotes, most significant digit first (R67). -/
def digitsValue (ds : List Byte) : Nat := ds.foldl (fun acc c => 10 * acc + (c.toNat - 0x30)) 0

/-- The ordinary decimal numeral of an integer: no leading zero but `"0"` itself, a `'-'` before a negative value, and
nothing else (R72). -/
def decimalNumeral (v : Int) : List Byte :=
  if v = 0 then [0x30]
  else (if v < 0 then [0x2D] else []) ++ ((Nat.digits 10 v.natAbs).reverse.map fun d => BitVec.ofNat 8 (0x30 + d))

namespace Machine

/-! ### The response to a request -/

/-- The response of R49's function to a request: what `RESP` holds after the transaction. -/
def answer (i : Instr) : Option Response :=
  match exec i State.reset with
  | .next t => t.resp
  | .fault _ => none
  | .refused _ => none

/-- What one host input does to `RESP`: a complete request replaces it by its response, a reset empties it. -/
def respAfter (r : Option Response) : HostInput → Option Response
  | .reset => none
  | .request p =>
    match decode p with
    | .ok i => answer i
    | .error _ => r

/-- The host's one obligation that a packet can break: every request is complete (R122). -/
def completeInput : HostInput → Bool
  | .reset => true
  | .request p => p.missing.isNone

/-- The host keeps the protocol for all that it is still to do. -/
def State.hostComplete (s : State) : Prop := ∀ x ∈ s.script, completeInput x = true

/-! ### Responses that the unit can give -/

/-- The greatest length of a text the unit produces: a `'-'` and the 612 digits of `2^(W-1)` (R48). -/
def maxText : Nat := 613

/-- A response the unit can give: a TEXT payload is the decimal numeral of a representable value (R72), so it has between
1 and 613 bytes (R48). Every WIDE and every BOOL payload is possible, and an error carries none. -/
def Response.legal : Response → Prop
  | .ok (.text t) => ∃ v : Int, Config.MIN ≤ v ∧ v ≤ Config.MAX ∧ t = decimalNumeral v
  | .ok (.wide _) => True
  | .ok (.bool _) => True
  | .error _ => True

/-- The invariant of the state: `RESP` is empty or holds a response the unit can give. -/
def State.Inv (s : State) : Prop := ∀ r, s.resp = some r → r.legal

/-- Where a state comes from: the state after reset with any plan of the host, and the steps from there. -/
inductive Reachable : State → Prop where
  /-- after reset, whatever the host is going to do -/
  | start (script : List HostInput) : Reachable { State.reset with script := script }
  /-- one step further -/
  | step {s t : State} (h : Reachable s) (ht : step s = .next t) : Reachable t

end Machine

end Sys2Proof
end

