-- ==== Sys2Proof/Certificates/Slice0/Obligations.lean ====
section
/-! DEFINITION. The statements for the provers. Each docstring names the rule of spec/ it formalises. `exec i s = .next
(s.respond x)` says at once that the request completes, that `RESP` holds status OK with payload `x`, and that nothing
else of the state changes; `.next (s.raise e)` says the same of an error response. -/

open Sys2Proof Sys2Proof.Machine

/-! ### The WideInt value -/

/-- R11: the unsigned reading is the weighted sum of the limbs, below `2^W`. -/
def Obligations.UnsignedReadingIsLimbSum : Prop :=
  ∀ x : WideInt, x.U = ∑ i ∈ Finset.range Config.SIZE, (x.l i).toNat * 256 ^ i ∧ x.U < Config.MODULUS

/-- R13: the sign bit is bit 7 of the top limb, its value divided by 128, and tells the sign of the value. -/
def Obligations.SignBitTellsNegative : Prop :=
  ∀ x : WideInt, (x.sign = true ↔ (x.l (Config.SIZE - 1)).toNat / 128 = 1) ∧
    (x.sign = (x.l (Config.SIZE - 1)).getLsbD 7) ∧ (x.sign = true ↔ x.V < 0) ∧ (x.sign = false ↔ 0 ≤ x.V)

/-- R14: `U` is a bijection from limb lists onto `0 .. 2^W - 1` and `V` one onto `MIN .. MAX`; equal values have equal
limbs; zero has one representation. -/
def Obligations.EveryLimbListIsOneValue : Prop :=
  (∀ x y : WideInt, (x.V = y.V ↔ ∀ i < Config.SIZE, x.l i = y.l i) ∧ (x.U = y.U ↔ x = y)) ∧
  (∀ x : WideInt, Config.MIN ≤ x.V ∧ x.V ≤ Config.MAX) ∧
  (∀ u : Nat, u < Config.MODULUS → ∃ x : WideInt, x.U = u) ∧
  (∀ v : Int, Config.MIN ≤ v → v ≤ Config.MAX → ∃ x : WideInt, x.V = v) ∧
  (∀ x : WideInt, x.V = 0 ↔ ∀ i < Config.SIZE, x.l i = 0)

/-! ### The complement engine -/

/-- R57: NEG and the closed form of `negate`, with its corners (a) to (e). -/
def Obligations.NegComplementsModuloWidth : Prop :=
  (∀ (a : WideInt) (s : State), ∃ r : WideInt, exec (.neg a) s = .next (s.respond (.wide r)) ∧
    r.U = (Config.MODULUS - a.U) % Config.MODULUS ∧
    (a.V ≠ Config.MIN → r.V = -a.V) ∧
    exec (.neg r) s = .next (s.respond (.wide a)) ∧
    (r = a ↔ a = WideInt.ZERO ∨ a = WideInt.MIN)) ∧
  (∀ s : State, exec (.neg WideInt.ZERO) s = .next (s.respond (.wide WideInt.ZERO)) ∧
    exec (.neg WideInt.MIN) s = .next (s.respond (.wide WideInt.MIN)))

/-- R58: the magnitude is the value itself or its negation, and its unsigned reading is the absolute value, `MIN`
included. -/
def Obligations.MagnitudeIsAbsoluteValue : Prop :=
  (∀ x : WideInt, (x.sign = false → mag x = x) ∧ (x.sign = true → mag x = negate x) ∧
    ((mag x).U : Int) = |x.V| ∧ (mag x).U ≤ Config.HALF) ∧
  mag WideInt.MIN = WideInt.MIN ∧ (mag WideInt.MIN).U = Config.HALF

/-! ### Construction and conversion -/

/-- R63: FROMINT is sign extension: the low four limbs hold the 32-bit pattern and every other limb repeats the sign. -/
def Obligations.FromintSignExtends : Prop :=
  ∀ (i : BitVec 32) (s : State), ∃ r : WideInt, exec (.fromint i) s = .next (s.respond (.wide r)) ∧
    r.V = i.toInt ∧ (r.U : Int) = i.toInt % (Config.MODULUS : Int) ∧
    (∀ k < 4, r.l k = i.extractLsb' (8 * k) 8) ∧
    (∀ k, 4 ≤ k → k < Config.SIZE → r.l k = if i.toInt < 0 then 0xFF else 0x00)

/-- R68: the value of a well-formed numeral, with and without sign; exact in range, wrapped outside, `"-0"` is zero, the
numeral of `MIN` gives `MIN`. -/
def Obligations.FromdecGivesNumeralModuloWidth : Prop :=
  ∀ (ds : List Byte) (s : State), DigitString ds →
    (∃ r : WideInt, exec (.fromdec ds) s = .next (s.respond (.wide r)) ∧
      r.U = digitsValue ds % Config.MODULUS ∧ ((digitsValue ds : Int) ≤ Config.MAX → r.V = digitsValue ds)) ∧
    (∃ r : WideInt, exec (.fromdec (0x2D :: ds)) s = .next (s.respond (.wide r)) ∧
      (r.U : Int) = (-(digitsValue ds : Int)) % (Config.MODULUS : Int) ∧
      (Config.MIN ≤ -(digitsValue ds : Int) → r.V = -(digitsValue ds : Int)) ∧
      (digitsValue ds = 0 → r = WideInt.ZERO) ∧
      (digitsValue ds = Config.HALF → r = WideInt.MIN))

/-- R65: exactly the well-formed decimal numerals are accepted, leading zeros included; the values of the rule's
examples `"007"`, `"-0"` and `"0000"`. -/
def Obligations.FromdecAcceptsExactlyNumerals : Prop :=
  (∀ (t : List Byte) (s : State),
    (∃ r : WideInt, exec (.fromdec t) s = .next (s.respond (.wide r))) ↔ WellFormedNumeral t) ∧
  (∀ (ds : List Byte) (s : State), DigitString ds →
    exec (.fromdec (0x30 :: ds)) s = exec (.fromdec ds) s ∧
    exec (.fromdec (0x2D :: 0x30 :: ds)) s = exec (.fromdec (0x2D :: ds)) s) ∧
  (∀ s : State,
    exec (.fromdec [0x30, 0x30, 0x37]) s = .next (s.respond (.wide (Limbs.wide Config.SIZE 7))) ∧
    exec (.fromdec [0x2D, 0x30]) s = .next (s.respond (.wide WideInt.ZERO)) ∧
    exec (.fromdec [0x30, 0x30, 0x30, 0x30]) s = .next (s.respond (.wide WideInt.ZERO)))

/-- R66: InvalidFormat with no payload, exactly for (a) the empty text, (b) a lone `'-'`, (c) any byte that is no digit,
but for a `'-'` at position 0. -/
def Obligations.FromdecRejectsExactlyMalformed : Prop :=
  ∀ (t : List Byte) (s : State),
    exec (.fromdec t) s = .next (s.raise .invalidFormat) ↔
      (t = [] ∨ t = [0x2D] ∨
        ∃ (k : Nat) (c : Byte), t[k]? = some c ∧ ¬(0x30 ≤ c.toNat ∧ c.toNat ≤ 0x39) ∧ ¬(k = 0 ∧ c = 0x2D))

/-- R72: TODEC gives the ordinary decimal numeral, of 1 to 613 bytes; FROMDEC takes it back to the same value; and TODEC
of the value of an in-range numeral gives its canonical form. -/
def Obligations.DecimalTextRoundTrip : Prop :=
  (∀ (a : WideInt) (s : State), exec (.todec a) s = .next (s.respond (.text (decimalNumeral a.V))) ∧
    1 ≤ (decimalNumeral a.V).length ∧ (decimalNumeral a.V).length ≤ 613 ∧
    exec (.fromdec (decimalNumeral a.V)) s = .next (s.respond (.wide a))) ∧
  (∀ (ds : List Byte) (s : State), DigitString ds →
    ((digitsValue ds : Int) ≤ Config.MAX → ∃ r : WideInt, exec (.fromdec ds) s = .next (s.respond (.wide r)) ∧
      exec (.todec r) s = .next (s.respond (.text (decimalNumeral (digitsValue ds))))) ∧
    (Config.MIN ≤ -(digitsValue ds : Int) → ∃ r : WideInt,
      exec (.fromdec (0x2D :: ds)) s = .next (s.respond (.wide r)) ∧
      exec (.todec r) s = .next (s.respond (.text (decimalNumeral (-(digitsValue ds : Int)))))))

/-- What a numeral of R72 looks like: it is well formed (R65), its digits denote the absolute value, and no digit string
of more than one digit begins with `'0'`. -/
def Obligations.NumeralIsCanonical : Prop :=
  ∀ v : Int, WellFormedNumeral (decimalNumeral v) ∧
    ∃ ds, DigitString ds ∧ digitsValue ds = v.natAbs ∧ (ds.head? = some 0x30 → ds = [0x30]) ∧
      ((0 ≤ v ∧ decimalNumeral v = ds) ∨ (v < 0 ∧ decimalNumeral v = 0x2D :: ds))

/-- R48: no reachable response holds a text longer than `1 + D = 613` bytes or an empty one, whatever the host does
(`script`, assumption log 1); the text of `MIN` has 613. -/
def Obligations.LongestTextIsThatOfMin : Prop :=
  (∀ s : State, Reachable s → ∀ t : List Byte, s.resp = some (.ok (.text t)) → 1 ≤ t.length ∧ t.length ≤ 613) ∧
  (decimalNumeral Config.MIN).length = 613

/-! ### The adder -/

/-- R77: ADD and SUB modulo `2^W`, the signed result the one number of `MIN .. MAX` in its class, and the three cases of
the signed sum. -/
def Obligations.AddSubWrapModuloWidth : Prop :=
  ∀ (a b : WideInt) (s : State),
    (∃ r : WideInt, exec (.add a b) s = .next (s.respond (.wide r)) ∧ r.U = (a.U + b.U) % Config.MODULUS ∧
      Config.MIN ≤ r.V ∧ r.V ≤ Config.MAX ∧
      r.V % (Config.MODULUS : Int) = (a.V + b.V) % (Config.MODULUS : Int) ∧
      (Config.MIN ≤ a.V + b.V → a.V + b.V ≤ Config.MAX → r.V = a.V + b.V) ∧
      (Config.MAX < a.V + b.V → r.V = a.V + b.V - (Config.MODULUS : Int)) ∧
      (a.V + b.V < Config.MIN → r.V = a.V + b.V + (Config.MODULUS : Int))) ∧
    (∃ r : WideInt, exec (.sub a b) s = .next (s.respond (.wide r)) ∧
      (r.U : Int) = ((a.U : Int) - b.U) % (Config.MODULUS : Int) ∧
      Config.MIN ≤ r.V ∧ r.V ≤ Config.MAX ∧
      r.V % (Config.MODULUS : Int) = (a.V - b.V) % (Config.MODULUS : Int))

/-- R78: addition is a commutative group with `negate` as the inverse, and its consequences for `subtract`. -/
def Obligations.AdditionIsCommutativeGroup : Prop :=
  (∀ a : WideInt, add a (negate a) = WideInt.ZERO ∧ add a WideInt.ZERO = a) ∧
  (∀ a b c : WideInt, add a b = add b a ∧ add (add a b) c = add a (add b c)) ∧
  (∀ a b : WideInt, (subtract a b = WideInt.ZERO ↔ equals a b = true) ∧ subtract a b = negate (subtract b a))

/-- R79: wraparound at the two ends of the range. -/
def Obligations.RangeEndsWrap : Prop :=
  ∀ s : State, exec (.add WideInt.MAX WideInt.ONE) s = .next (s.respond (.wide WideInt.MIN)) ∧
    exec (.sub WideInt.MIN WideInt.ONE) s = .next (s.respond (.wide WideInt.MAX))

/-- R76, corner cases: `a - MIN = a + MIN`, exact for negative `a` and wrapped otherwise; `ZERO - MIN = MIN`. -/
def Obligations.SubtractingMin : Prop :=
  (∀ (a : WideInt) (s : State), exec (.sub a WideInt.MIN) s = exec (.add a WideInt.MIN) s ∧
    ∃ r : WideInt, exec (.sub a WideInt.MIN) s = .next (s.respond (.wide r)) ∧
      r.V = if a.V < 0 then a.V + (Config.HALF : Int) else a.V - (Config.HALF : Int)) ∧
  (∀ s : State, exec (.sub WideInt.ZERO WideInt.MIN) s = .next (s.respond (.wide WideInt.MIN)))

/-- R80: ADD, SUB and MUL always respond OK, with the result and nothing else, and the host finds the signed overflow of an
addition from the signs. -/
def Obligations.OverflowIsNeverSignalled : Prop :=
  ∀ (a b : WideInt) (s : State),
    (∃ r : WideInt, exec (.add a b) s = .next (s.respond (.wide r)) ∧ (Response.ok (.wide r)).status = 0 ∧
      ((a.sign = b.sign ∧ r.sign ≠ a.sign) ↔ ¬(Config.MIN ≤ a.V + b.V ∧ a.V + b.V ≤ Config.MAX)) ∧
      (addOverflows a b = true ↔ ¬(Config.MIN ≤ a.V + b.V ∧ a.V + b.V ≤ Config.MAX))) ∧
    (∃ r : WideInt, exec (.sub a b) s = .next (s.respond (.wide r)) ∧ (Response.ok (.wide r)).status = 0) ∧
    (∃ r : WideInt, exec (.mul a b) s = .next (s.respond (.wide r)) ∧ (Response.ok (.wide r)).status = 0)

/-! ### The multiplier and the divider -/

/-- R94: MUL is the product of the unsigned, equally of the signed readings, modulo `2^W`; exact when in range. -/
def Obligations.MulKeepsLowLimbs : Prop :=
  ∀ (a b : WideInt) (s : State), ∃ r : WideInt, exec (.mul a b) s = .next (s.respond (.wide r)) ∧
    r.U = a.U * b.U % Config.MODULUS ∧ (r.U : Int) = a.V * b.V % (Config.MODULUS : Int) ∧
    Config.MIN ≤ r.V ∧ r.V ≤ Config.MAX ∧
    r.V % (Config.MODULUS : Int) = a.V * b.V % (Config.MODULUS : Int) ∧
    (Config.MIN ≤ a.V * b.V → a.V * b.V ≤ Config.MAX → r.V = a.V * b.V)

/-- R82, corner cases of MUL. -/
def Obligations.MulCorners : Prop :=
  (∀ (a : WideInt) (s : State),
    exec (.mul a (Limbs.ofInt Config.SIZE (-1))) s = exec (.neg a) s ∧
    exec (.mul WideInt.MIN a) s =
      .next (s.respond (.wide (if a.V % 2 = 0 then WideInt.ZERO else WideInt.MIN)))) ∧
  (∀ s : State, exec (.mul WideInt.MIN WideInt.MIN) s = .next (s.respond (.wide WideInt.ZERO)) ∧
    exec (.mul WideInt.MAX WideInt.MAX) s = .next (s.respond (.wide WideInt.ONE)) ∧
    exec (.mul (Limbs.wide Config.SIZE (2 ^ (Config.W / 2))) (Limbs.wide Config.SIZE (2 ^ (Config.W / 2)))) s =
      .next (s.respond (.wide WideInt.ZERO)))

/-- R84: `udivrem` gives the one pair with `U(n) = U(q)*U(d) + U(r)` and `U(r) < U(d)`, the quotient and the remainder of
the division of natural numbers. -/
def Obligations.DividerCoreIsEuclidean : Prop :=
  ∀ x d : WideInt, d.U ≠ 0 →
    (∀ q r : WideInt, (x.U = q.U * d.U + r.U ∧ r.U < d.U) ↔ udivrem x d = (q, r)) ∧
    (udivrem x d).1.U = x.U / d.U ∧ (udivrem x d).2.U = x.U % d.U ∧ (udivrem x d).1.U ≤ x.U

/-- R91: DIV truncates toward zero and REM has the sign of the dividend, with the sign table row by row. -/
def Obligations.DivRemTruncate : Prop :=
  (∀ (a b : WideInt) (s : State), b.V ≠ 0 → ∃ q r : WideInt,
    exec (.div a b) s = .next (s.respond (.wide q)) ∧ exec (.rem a b) s = .next (s.respond (.wide r)) ∧
    (q.U : Int) = a.V.tdiv b.V % (Config.MODULUS : Int) ∧
    r.V = a.V - b.V * a.V.tdiv b.V ∧
    (¬(a.V = Config.MIN ∧ b.V = -1) → q.V = a.V.tdiv b.V) ∧
    |r.V| < |b.V| ∧ (r.V = 0 ∨ (r.V < 0 ↔ a.V < 0)) ∧
    (0 ≤ a.V → 0 < b.V → q.V = (a.V.natAbs / b.V.natAbs : Nat) ∧ r.V = (a.V.natAbs % b.V.natAbs : Nat)) ∧
    (0 ≤ a.V → b.V < 0 → q.V = -((a.V.natAbs / b.V.natAbs : Nat) : Int) ∧ r.V = (a.V.natAbs % b.V.natAbs : Nat)) ∧
    (a.V < 0 → 0 < b.V → q.V = -((a.V.natAbs / b.V.natAbs : Nat) : Int) ∧
      r.V = -((a.V.natAbs % b.V.natAbs : Nat) : Int)) ∧
    (a.V < 0 → b.V < 0 → ¬(a.V = Config.MIN ∧ b.V = -1) → q.V = (a.V.natAbs / b.V.natAbs : Nat)) ∧
    (a.V < 0 → b.V < 0 → r.V = -((a.V.natAbs % b.V.natAbs : Nat) : Int))) ∧
  (∀ (a b : WideInt) (s : State), b.V = 0 → exec (.div a b) s = .next (s.raise .divisionByZero) ∧
    exec (.rem a b) s = .next (s.raise .divisionByZero))

/-- R90: a zero divisor gives DivisionByZero and no payload, for every dividend, zero included. -/
def Obligations.ZeroDivisorIsReported : Prop :=
  ∀ (a b : WideInt) (s : State),
    (exec (.div a b) s = .next (s.raise .divisionByZero) ↔ ∀ i < Config.SIZE, b.l i = 0) ∧
    (exec (.rem a b) s = .next (s.raise .divisionByZero) ↔ ∀ i < Config.SIZE, b.l i = 0)

/-- R92: the minimum value in division, cases (a) to (e). -/
def Obligations.MinimumValueDivision : Prop :=
  (∀ s : State,
    exec (.div WideInt.MIN (Limbs.ofInt Config.SIZE (-1))) s = .next (s.respond (.wide WideInt.MIN)) ∧
    exec (.rem WideInt.MIN (Limbs.ofInt Config.SIZE (-1))) s = .next (s.respond (.wide WideInt.ZERO)) ∧
    exec (.div WideInt.MIN WideInt.ONE) s = .next (s.respond (.wide WideInt.MIN)) ∧
    exec (.rem WideInt.MIN WideInt.ONE) s = .next (s.respond (.wide WideInt.ZERO)) ∧
    exec (.div WideInt.MIN WideInt.MIN) s = .next (s.respond (.wide WideInt.ONE)) ∧
    exec (.rem WideInt.MIN WideInt.MIN) s = .next (s.respond (.wide WideInt.ZERO))) ∧
  (∀ (a : WideInt) (s : State), a ≠ WideInt.MIN →
    exec (.div a WideInt.MIN) s = .next (s.respond (.wide WideInt.ZERO)) ∧
    exec (.rem a WideInt.MIN) s = .next (s.respond (.wide a))) ∧
  (∀ s : State, ∃ r : WideInt,
    exec (.div WideInt.MIN (Limbs.wide Config.SIZE 2)) s = .next (s.respond (.wide r)) ∧
    2 * r.V = Config.MIN ∧ r.l (Config.SIZE - 1) = 0xC0 ∧
    ∀ i < Config.SIZE - 1, r.l i = 0x00)

/-- R93: the multiplication laws and the division identity, which holds for every nonzero divisor, the wrapped case
included. -/
def Obligations.DivisionIdentity : Prop :=
  (∀ a : WideInt, multiply a WideInt.ZERO = WideInt.ZERO ∧ multiply a WideInt.ONE = a) ∧
  (∀ a b : WideInt, isZero b = false → add (multiply (divide a b) b) (remainder a b) = a) ∧
  (∀ a b c : WideInt, multiply a b = multiply b a ∧ multiply (multiply a b) c = multiply a (multiply b c) ∧
    multiply a (add b c) = add (multiply a b) (multiply a c))

/-! ### The comparator -/

/-- R96: `is_zero` is true exactly for the one representation of zero. -/
def Obligations.ZeroTest : Prop :=
  ∀ x : WideInt, (isZero x = true ↔ ∀ i < Config.SIZE, x.l i = 0x00) ∧ (isZero x = true ↔ x = WideInt.ZERO) ∧
    (isZero x = true ↔ x.U = 0) ∧ (isZero x = true ↔ x.V = 0) ∧ isZero x = equals x WideInt.ZERO

/-- R97, R98: EQ is true exactly when every limb pair is equal, equivalently the readings; NE is its negation. -/
def Obligations.EqNeCompareLimbs : Prop :=
  ∀ (a b : WideInt) (s : State), ∃ c : Bool, exec (.eq a b) s = .next (s.respond (.bool c)) ∧
    exec (.ne a b) s = .next (s.respond (.bool (!c))) ∧ (c = true ↔ ∀ i < Config.SIZE, a.l i = b.l i) ∧
    (c = true ↔ a.U = b.U) ∧ (c = true ↔ a.V = b.V)

/-- R104, with LE, GT and GE derived as R101 to R103 say: the order is that of the signed values. -/
def Obligations.OrderIsNumeric : Prop :=
  ∀ (a b : WideInt) (s : State),
    (lessThan a b = true ↔ a.V < b.V) ∧
    exec (.lt a b) s = .next (s.respond (.bool (decide (a.V < b.V)))) ∧
    exec (.le a b) s = .next (s.respond (.bool (decide (a.V ≤ b.V)))) ∧
    exec (.gt a b) s = .next (s.respond (.bool (decide (a.V > b.V)))) ∧
    exec (.ge a b) s = .next (s.respond (.bool (decide (a.V ≥ b.V))))

/-- R105: the order is total and consistent with `equals`, transitive, and agrees with addition where nothing wraps. -/
def Obligations.OrderIsTotal : Prop :=
  (∀ a b : WideInt,
    (lessThan a b = true ∧ equals a b = false ∧ lessThan b a = false) ∨
    (lessThan a b = false ∧ equals a b = true ∧ lessThan b a = false) ∨
    (lessThan a b = false ∧ equals a b = false ∧ lessThan b a = true)) ∧
  (∀ a b c : WideInt, lessThan a b = true → lessThan b c = true → lessThan a c = true) ∧
  (∀ a b c : WideInt, Config.MIN ≤ a.V + c.V → a.V + c.V ≤ Config.MAX → Config.MIN ≤ b.V + c.V →
    b.V + c.V ≤ Config.MAX → lessThan a b = true → lessThan (add a c) (add b c) = true) ∧
  lessThan WideInt.MAX (add WideInt.MAX WideInt.ONE) = false ∧
  (subtract WideInt.MIN WideInt.ONE = WideInt.MAX ∧ lessThan WideInt.MIN WideInt.ONE = true)

/-- R129: the same value as both operands of a request. -/
def Obligations.SameOperandTwice : Prop :=
  ∀ (x : WideInt) (s : State),
    (∃ r : WideInt, exec (.add x x) s = .next (s.respond (.wide r)) ∧
      (r.U : Int) = 2 * x.V % (Config.MODULUS : Int)) ∧
    exec (.sub x x) s = .next (s.respond (.wide WideInt.ZERO)) ∧
    (∃ r : WideInt, exec (.mul x x) s = .next (s.respond (.wide r)) ∧
      (r.U : Int) = x.V ^ 2 % (Config.MODULUS : Int)) ∧
    (x ≠ WideInt.ZERO → exec (.div x x) s = .next (s.respond (.wide WideInt.ONE)) ∧
      exec (.rem x x) s = .next (s.respond (.wide WideInt.ZERO))) ∧
    (x = WideInt.ZERO → exec (.div x x) s = .next (s.raise .divisionByZero) ∧
      exec (.rem x x) s = .next (s.raise .divisionByZero)) ∧
    exec (.eq x x) s = .next (s.respond (.bool true)) ∧ exec (.ne x x) s = .next (s.respond (.bool false)) ∧
    exec (.lt x x) s = .next (s.respond (.bool false)) ∧ exec (.le x x) s = .next (s.respond (.bool true)) ∧
    exec (.gt x x) s = .next (s.respond (.bool false)) ∧ exec (.ge x x) s = .next (s.respond (.bool true))

/-! ### Errors and responses -/

/-- R111: the reserved code, in any packet of at least its four bits, gives status IllegalOp, code 3, and no payload, and
the unit goes on in a next state. -/
def Obligations.ReservedCodeIsIllegalOp : Prop :=
  (∀ s : State, exec .reservedF s = .next (s.raise .illegalOp)) ∧
  (∀ p : Packet, 4 ≤ p.length → p.field 0 4 = 0xF → decode p = .ok .reservedF) ∧
  (Response.error .illegalOp).status = 3 ∧ encodeResponse (.error .illegalOp) = ⟨2, 3⟩

/-- R114: which operation reports which error and when; every other request is answered with status OK; the codes. -/
def Obligations.ErrorTable : Prop :=
  (∀ (i : Instr) (s : State),
    (exec i s = .next (s.raise .divisionByZero) ↔
      ∃ a b : WideInt, (i = .div a b ∨ i = .rem a b) ∧ isZero b = true) ∧
    (exec i s = .next (s.raise .invalidFormat) ↔ ∃ t : List Byte, i = .fromdec t ∧ ¬WellFormedNumeral t) ∧
    (exec i s = .next (s.raise .illegalOp) ↔ i = .reservedF) ∧
    ((∃ x : Payload, exec i s = .next (s.respond x)) ↔ ¬∃ e : ErrorCode, exec i s = .next (s.raise e))) ∧
  (∀ x : Payload, (Response.ok x).status = 0) ∧ (Response.error .divisionByZero).status = 1 ∧
  (Response.error .invalidFormat).status = 2 ∧ (Response.error .illegalOp).status = 3

/-- R41, R45, R130: every request is answered, whatever the state, with an error or with a payload of the kind its
operation fixes; nothing but `RESP` changes. -/
def Obligations.PayloadKindIsFixedByOperation : Prop :=
  ∀ (i : Instr) (s : State),
    (∃ x : Payload, exec i s = .next { s with resp := some (.ok x) } ∧ i.op.payloadKind = some x.kind) ∨
    (∃ e : ErrorCode, exec i s = .next { s with resp := some (.error e) } ∧
      (i.op = .div ∨ i.op = .rem ∨ i.op = .fromdec ∨ i.op = .reservedF))

/-- R45, R46, R122: the host reads back from the packed response exactly the response of its request. -/
def Obligations.ResponsePortRoundTrip : Prop :=
  ∀ (i : Instr) (s t : State) (r : Response), exec i s = .next t → t.resp = some r →
    readResponse i.op (encodeResponse r) = some r ∧ t.port = some (encodeResponse r)

/-- R46: the fields and the length of every packed response: the status in bits 1..0, then the payload of an OK response,
and nothing above its length. A text has the length that the 16 bits of `tlen` can count (R45). -/
def Obligations.PackedResponsePositions : Prop :=
  (∀ r : Response, (encodeResponse r).field 0 2 = r.status) ∧
  (∀ e : ErrorCode, encodeResponse (.error e) = ⟨2, (Response.error e).status⟩) ∧
  (∀ r : WideInt, (encodeResponse (.ok (.wide r))).length = 2034 ∧
    (encodeResponse (.ok (.wide r))).value < 2 ^ (2 + Config.W) ∧
    ∀ k < Config.SIZE, (encodeResponse (.ok (.wide r))).field (8 * k + 2) 8 = (r.l k).toNat) ∧
  (∀ c : Bool, (encodeResponse (.ok (.bool c))).length = 3 ∧ (encodeResponse (.ok (.bool c))).value < 2 ^ 3 ∧
    (encodeResponse (.ok (.bool c))).field 2 1 = if c then 1 else 0) ∧
  (∀ t : List Byte, textFits t = true →
    (encodeResponse (.ok (.text t))).length = 18 + 8 * t.length ∧
    (encodeResponse (.ok (.text t))).value < 2 ^ (18 + 8 * t.length) ∧
    (encodeResponse (.ok (.text t))).field 2 16 = t.length ∧
    ∀ (k : Nat) (c : Byte), t[k]? = some c → (encodeResponse (.ok (.text t))).field (8 * k + 18) 8 = c.toNat)

/-! ### Encoding -/

/-- R40: the operation code in bits 3..0 and the operand fields of the formats U, B, I, T and X, with the lengths. -/
def Obligations.PackedFieldPositions : Prop :=
  (∀ i : Instr, (encode i).field 0 4 = i.op.code) ∧
  (∀ a : WideInt, ∀ i ∈ [Instr.neg a, .todec a], (encode i).length = 2036 ∧
    ∀ k < Config.SIZE, (encode i).field (8 * k + 4) 8 = (a.l k).toNat) ∧
  (∀ a b : WideInt, ∀ i ∈ [Instr.add a b, .sub a b, .mul a b, .div a b, .rem a b, .eq a b, .ne a b, .lt a b, .le a b,
      .gt a b, .ge a b], (encode i).length = 4068 ∧
    ∀ k < Config.SIZE, (encode i).field (8 * k + 4) 8 = (a.l k).toNat ∧
      (encode i).field (8 * k + 2036) 8 = (b.l k).toNat) ∧
  (∀ i : BitVec 32, (encode (.fromint i)).field 4 32 = i.toNat ∧ (encode (.fromint i)).length = 36) ∧
  (∀ s : List Byte, textFits s = true → (encode (.fromdec s)).field 4 16 = s.length ∧
    (encode (.fromdec s)).length = 20 + 8 * s.length ∧
    ∀ (k : Nat) (c : Byte), s[k]? = some c → (encode (.fromdec s)).field (8 * k + 20) 8 = c.toNat) ∧
  (encode .reservedF).length = 4

/-- Decode and encode agree: a well-formed request of every family is read back as it is (R40, R41). -/
def Obligations.DecodeInvertsEncode : Prop :=
  ∀ i : Instr, i.wellFormed = true → decode (encode i) = .ok i

/-- R39 (and U4): bits above the length of the format are never read, whatever they are and however many. -/
def Obligations.ExtraBitsAreNeverRead : Prop :=
  ∀ (i : Instr) (more junk : Nat), i.wellFormed = true →
    decode ⟨(encode i).length + more, (encode i).value + 2 ^ (encode i).length * junk⟩ = .ok i

/-- R42: every complete packet is a request, well formed; a packet of exactly its format's length is the encoding of the
request it decodes to. -/
def Obligations.EveryCompletePacketIsARequest : Prop :=
  ∀ p : Packet, 4 ≤ p.length → (p.op.format = .T → 20 ≤ p.length) → p.op.format.bits p.slen ≤ p.length →
    ∃ i : Instr, decode p = .ok i ∧ i.wellFormed = true ∧ i.op = p.op ∧
      (p.length = p.op.format.bits p.slen → p.value < 2 ^ p.length → encode i = p)

/-- Words written out from the tables of R40 and R41 (and 95_test_vectors.md section 2.1) decode to what they stand for. -/
def Obligations.PlainWordsDecode : Prop :=
  decode ⟨36, 0xFFFFFFFD1⟩ = .ok (.fromint 0xFFFFFFFD) ∧
  decode ⟨52, 0x3332312D00042⟩ = .ok (.fromdec [0x2D, 0x31, 0x32, 0x33]) ∧
  decode ⟨20, 0x00002⟩ = .ok (.fromdec []) ∧
  decode ⟨2036, 0x30⟩ = .ok (.neg (Limbs.wide Config.SIZE 3)) ∧
  decode ⟨4, 0xF⟩ = .ok .reservedF

/-! ### Steps -/

/-- R49, R32: a complete request that the host presents next is sampled whole and executed, and taken from the host's
inputs (`script`, the model's choice of assumption log 1). -/
def Obligations.StepRunsThePresentedRequest : Prop :=
  ∀ (s : State) (p : Packet) (rest : List HostInput) (i : Instr), s.script = .request p :: rest → decode p = .ok i →
    step s = exec i { s with script := rest }

/-- R123: reset is a step of its own whose whole effect is to empty `RESP`; twice is the same as once. The host's inputs
stand in `script` (the model's choice, assumption log 1). -/
def Obligations.ResetEmptiesResp : Prop :=
  (∀ (s : State) (rest : List HostInput), s.script = .reset :: rest → step s = .next { resp := none, script := rest }) ∧
  (∀ s : State, s.applyReset.applyReset = s.applyReset ∧ s.applyReset = { s with resp := none })

/-- R124: after reset there is nothing to read, neither a status nor a payload. -/
def Obligations.NothingToReadAfterReset : Prop :=
  State.reset.resp = none ∧ State.reset.port = none ∧ ∀ s : State, s.applyReset.port = none

/-- R115, in the form the model gives it (assumption log 1): when the host does nothing, nothing happens in the unit. -/
def Obligations.IdleHostChangesNothing : Prop :=
  ∀ s : State, s.script = [] → step s = .next s

/-- The model's choice (assumption log 2), where R122 binds the host: the machine stops exactly when a request is
presented that lacks bits of its format, every such request is refused by name, and these are the packets that lack bits:
those without an operation code, of format T without a text length, or shorter than their format (R40, R50). -/
def Obligations.OnlyIncompleteRequestsStop : Prop :=
  (∀ s : State, (¬∃ t : State, step s = .next t) ↔
    ∃ (p : Packet) (rest : List HostInput), s.script = .request p :: rest ∧ p.missing ≠ none) ∧
  (∀ (s : State) (p : Packet) (rest : List HostInput), s.script = .request p :: rest → p.missing ≠ none →
    step s = .refused .incompleteRequest) ∧
  (∀ p : Packet, p.missing ≠ none ↔
    p.length < 4 ∨ (p.op.format = .T ∧ p.length < 20) ∨ p.length < p.op.format.bits p.slen)

/-- R113, R126, R135: as long as the host presents complete requests the unit never stops, errors included (over the
host's `script`, assumption log 1). -/
def Obligations.CompleteHostNeverStops : Prop :=
  ∀ s : State, s.hostComplete → ∃ t : State, step s = .next t ∧ t.hostComplete ∧ t.script = s.script.tail

/-- R17, R35: what a host input does depends on nothing that was in `RESP` before it, an error included (R113); the inputs
stand in `script` (assumption log 1). -/
def Obligations.HistoryDoesNotMatter : Prop :=
  ∀ (script : List HostInput) (r r' : Option Response), script ≠ [] →
    step { resp := r, script := script } = step { resp := r', script := script }

/-- R34: repeating a request gives the same response (`issue` presents it through `script`, assumption log 1). -/
def Obligations.RepeatingARequestChangesNothing : Prop :=
  ∀ (i : Instr) (s : State), i.wellFormed = true → ∃ t : State, issue i s = .next t ∧ issue i t = .next t

/-- R22, R35 (2): along a whole run `RESP` follows the host's inputs one by one, and holds the response of the latest
transaction at the end. The host's inputs stand in `script` (assumption log 1). -/
def Obligations.RunFollowsTheHost : Prop :=
  (∀ s : State, s.hostComplete → Host.Core.run Sys2Proof.core s.script.length s =
    .next { resp := s.script.foldl respAfter s.resp, script := [] }) ∧
  (∀ (s : State) (before : List HostInput) (i : Instr), s.hostComplete → i.wellFormed = true →
    s.script = before ++ [.request (encode i)] → Host.Core.run Sys2Proof.core s.script.length s =
      .next { resp := answer i, script := [] } ∧ answer i ≠ none)

/-- The invariant is kept by every step from every state that has it: a TEXT in `RESP` is the decimal numeral of a
representable value (R72). -/
def Obligations.StepKeepsLegalResponse : Prop :=
  ∀ s t : State, s.Inv → step s = .next t → t.Inv

/-- The invariant holds right after reset. -/
def Obligations.ResetHasLegalResponse : Prop :=
  State.reset.Inv

/-- R121: a unit whose own step answers a next state takes it, and leaves every other unit as it is; nothing else happens
to a list of units (one step at a time, assumption log 6). -/
def Obligations.UnitsShareNothing : Prop :=
  (∀ (units : List State) (k : Nat) (s t : State), units[k]? = some s → step s = .next t →
    stepUnit units k = some (units.set k t)) ∧
  (∀ (units after : List State) (k : Nat), stepUnit units k = some after →
    after.length = units.length ∧ (∀ j, j ≠ k → after[j]? = units[j]?) ∧
    ∃ s t : State, units[k]? = some s ∧ step s = .next t ∧ after[k]? = some t)

/-! ### The host's scripts -/

/-- R53: the pseudo-instructions `ZERO` and `ONE` stand for `FROMINT #0` and `FROMINT #1` and give zero and one (`issue`
presents the request through `script`, the model's choice of assumption log 1). -/
def Obligations.PseudoInstructionsGiveZeroAndOne : Prop :=
  ∀ (results : List Response) (s : State),
    (∃ i : Instr, Line.zero.assemble results = .ok i ∧ (Line.integer 0).assemble results = .ok i ∧
      issue i s = .next (s.respond (.wide WideInt.ZERO))) ∧
    (∃ i : Instr, Line.one.assemble results = .ok i ∧ (Line.integer 1).assemble results = .ok i ∧
      issue i s = .next (s.respond (.wide WideInt.ONE)))

/-- R52: the three ways to write a WideInt operand: a numeral in `MIN .. MAX`, a limb list, and `$n`, which R54 refuses
when line `n` gave no WIDE payload. -/
def Obligations.WideOperandValues : Prop :=
  ∀ results : List Response,
    (∀ v : Int, Config.MIN ≤ v → v ≤ Config.MAX →
      ∃ x : WideInt, (WideOperand.numeral v).value results = .ok x ∧ x.V = v) ∧
    (∀ v : Int, (v < Config.MIN ∨ Config.MAX < v) → (WideOperand.numeral v).value results = .error .outOfRange) ∧
    (∃ x y : WideInt, WideOperand.min.value results = .ok x ∧ x.V = Config.MIN ∧
      WideOperand.max.value results = .ok y ∧ y.V = Config.MAX) ∧
    (∀ x : WideInt, (WideOperand.limbs x.list).value results = .ok x) ∧
    (∀ (n : Nat) (x : WideInt), (WideOperand.result n).value results = .ok x ↔
      1 ≤ n ∧ results[n - 1]? = some (.ok (.wide x)))

/-- R51, R54: issuing an assembled line puts `exec` of its request on the response port, and the script goes on with the
kept responses (`issue` presents each request through `script`, the model's choice of assumption log 1). -/
def Obligations.ScriptIssuesItsLines : Prop :=
  ∀ (line : Line) (lines : List Line) (s : State) (results : List Response) (i : Instr),
    line.assemble results = .ok i → ∃ r : Response, exec i s = .next { s with resp := some r } ∧
      runScript (line :: lines) s results = runScript lines { s with resp := some r } (results ++ [r])
end

