-- ==== Sys2Proof/Laws/Limbs.lean ====
section
/-! SUPPORT. The readings of a limb list (10_state.md rules R11 to R14): bounds, the bijection between limb lists and
numbers below `2^W`, the sign bit, and the signed reading as the balanced residue of the unsigned one. -/

namespace Sys2Proof

theorem limbsToNat_lt (x : List Byte) : limbsToNat x < 256 ^ x.length := by
  induction x with
  | nil => simp [limbsToNat]
  | cons b bs ih =>
    have := b.isLt
    simp only [limbsToNat, List.length_cons, pow_succ]
    omega

theorem limbsToNat_natToLimbs (n u : Nat) : limbsToNat (natToLimbs n u) = u % 256 ^ n := by
  induction n generalizing u with
  | zero => simp [natToLimbs, limbsToNat, Nat.mod_one]
  | succ n ih =>
    rw [natToLimbs, limbsToNat, ih, pow_succ', Nat.mod_mul]
    simp

theorem limbsToNat_injective {x y : List Byte} (hl : x.length = y.length) (h : limbsToNat x = limbsToNat y) :
    x = y := by
  induction x generalizing y with
  | nil => cases y with
    | nil => rfl
    | cons b bs => simp at hl
  | cons a as ih =>
    cases y with
    | nil => simp at hl
    | cons b bs =>
      have ha := a.isLt
      have hb := b.isLt
      simp only [limbsToNat] at h
      have h1 : a.toNat = b.toNat := by omega
      have h2 : limbsToNat as = limbsToNat bs := by omega
      rw [BitVec.eq_of_toNat_eq h1, ih (by simpa using hl) h2]

theorem limbsToNat_append (x y : List Byte) :
    limbsToNat (x ++ y) = limbsToNat x + 256 ^ x.length * limbsToNat y := by
  induction x with
  | nil => simp [limbsToNat]
  | cons b bs ih =>
    simp only [List.cons_append, limbsToNat, ih, List.length_cons, pow_succ']
    ring

theorem limbsToNat_take (x : List Byte) (k : Nat) (h : k ≤ x.length) :
    limbsToNat (x.take k) = limbsToNat x % 256 ^ k := by
  conv_rhs => rw [← List.take_append_drop k x, limbsToNat_append]
  have hlt := limbsToNat_lt (x.take k)
  have hk : (x.take k).length = k := by simp [h]
  rw [hk] at hlt ⊢
  rw [Nat.add_mul_mod_self_left, Nat.mod_eq_of_lt hlt]

theorem limbsToNat_replicate_zero (k : Nat) : limbsToNat (List.replicate k 0) = 0 := by
  induction k with
  | zero => rfl
  | succ k ih => rw [List.replicate_succ, limbsToNat, ih]; rfl

/-- Limb `i` of a list is the base-256 digit of weight `256^i` (R26). -/
theorem limbsToNat_digit (x : List Byte) (i : Nat) : (x.getD i 0).toNat = limbsToNat x / 256 ^ i % 256 := by
  induction x generalizing i with
  | nil => simp [limbsToNat]
  | cons b bs ih =>
    have := b.isLt
    cases i with
    | zero => simp [limbsToNat]; omega
    | succ i =>
      rw [List.getD_cons_succ, ih, limbsToNat, pow_succ', ← Nat.div_div_eq_div_mul]
      congr 2
      omega

namespace Limbs

variable {n : Nat}

theorem two_pow_eight_mul (n : Nat) : 2 ^ (8 * n) = 256 ^ n := by rw [pow_mul]; norm_num

theorem U_lt (x : Limbs n) : x.U < 2 ^ (8 * n) := by
  have h := limbsToNat_lt x.list
  rw [x.length_eq] at h
  rwa [two_pow_eight_mul]

theorem ext_list {x y : Limbs n} (h : x.list = y.list) : x = y := by
  cases x; cases y; cases h; rfl

/-- `U` is injective (R14). -/
theorem U_injective {x y : Limbs n} (h : x.U = y.U) : x = y :=
  ext_list (limbsToNat_injective (x.length_eq.trans y.length_eq.symm) h)

theorem U_inj {x y : Limbs n} : x.U = y.U ↔ x = y := ⟨U_injective, fun h => h ▸ rfl⟩

theorem U_wide (n u : Nat) : (wide n u).U = u % 2 ^ (8 * n) := by
  rw [two_pow_eight_mul]; exact limbsToNat_natToLimbs n u

theorem U_wide_of_lt {u : Nat} (h : u < 2 ^ (8 * n)) : (wide n u).U = u := by
  rw [U_wide, Nat.mod_eq_of_lt h]

/-- `wide` undoes `U`. -/
theorem wide_U (x : Limbs n) : wide n x.U = x := U_injective (U_wide_of_lt x.U_lt)

@[simp] theorem U_zero : (zero n).U = 0 := by rw [zero, U_wide, Nat.zero_mod]

/-- Limb `i` is the base-256 digit of weight `256^i` of the unsigned reading (R11, R26). -/
theorem l_toNat (x : Limbs n) (i : Nat) : (x.l i).toNat = x.U / 256 ^ i % 256 := limbsToNat_digit x.list i

/-- A value is fixed by its limbs (R14). -/
theorem ext_l {x y : Limbs n} (h : ∀ i < n, x.l i = y.l i) : x = y := by
  refine ext_list (List.ext_getElem (x.length_eq.trans y.length_eq.symm) fun i hx hy => ?_)
  have := h i (by rw [← x.length_eq]; exact hx)
  simpa [l, List.getD_eq_getElem?_getD, hx, hy] using this

theorem l_ofFn (f : Nat → Byte) {i : Nat} (h : i < n) : (ofFn n f).l i = f i := by
  simp [l, ofFn, List.getD_eq_getElem?_getD, h]

theorem half_add_half (hn : 0 < n) : 2 ^ (8 * n) = 2 ^ (8 * n - 1) + 2 ^ (8 * n - 1) := by
  obtain ⟨m, hm⟩ : ∃ m, 8 * n = m + 1 := ⟨8 * n - 1, by omega⟩
  rw [hm, pow_succ]; simp; omega

/-- The sign bit is bit `W-1` of the unsigned reading (R13). -/
theorem sign_iff_U (hn : 0 < n) (x : Limbs n) : x.sign = true ↔ 2 ^ (8 * n - 1) ≤ x.U := by
  have hU := x.U_lt
  have hhalf := half_add_half hn
  have hbit : x.sign = decide (128 ≤ (x.l (n - 1)).toNat) := by
    have : ∀ b : Byte, b.getLsbD 7 = decide (128 ≤ b.toNat) := by decide
    exact this _
  obtain ⟨m, rfl⟩ : ∃ m, n = m + 1 := ⟨n - 1, by omega⟩
  have hp : 2 ^ (8 * (m + 1) - 1) = 256 ^ m * 128 := by
    have : 8 * (m + 1) - 1 = 8 * m + 7 := by omega
    rw [this, pow_add, pow_mul]; norm_num
  have hU' : x.U < 256 ^ m * 256 := by
    have := x.U_lt
    rwa [two_pow_eight_mul, pow_succ] at this
  rw [hbit, decide_eq_true_iff, l_toNat, hp, Nat.add_sub_cancel]
  have hlt : x.U / 256 ^ m < 256 := by rw [Nat.div_lt_iff_lt_mul (by positivity)]; rwa [mul_comm] at hU'
  rw [Nat.mod_eq_of_lt hlt, Nat.le_div_iff_mul_le (by positivity), mul_comm]

theorem sign_false_iff_U (hn : 0 < n) (x : Limbs n) : x.sign = false ↔ x.U < 2 ^ (8 * n - 1) := by
  rw [← Bool.not_eq_true, sign_iff_U hn, not_le]

theorem V_of_sign_false (hn : 0 < n) {x : Limbs n} (h : x.sign = false) : x.V = x.U := by
  rw [V, if_pos ((sign_false_iff_U hn x).1 h)]

theorem V_of_sign_true (hn : 0 < n) {x : Limbs n} (h : x.sign = true) :
    x.V = (x.U : Int) - ((2 ^ (8 * n) : Nat) : Int) := by
  rw [V, if_neg (not_lt.2 ((sign_iff_U hn x).1 h))]

/-- The sign bit is 1 exactly when the value is negative (R13). -/
theorem sign_iff_V_neg (hn : 0 < n) (x : Limbs n) : x.sign = true ↔ x.V < 0 := by
  have hU := x.U_lt
  cases h : x.sign with
  | false => rw [V_of_sign_false hn h]; simp
  | true => rw [V_of_sign_true hn h]; simp only [true_iff]; omega

/-- `MIN <= V(x) <= MAX` (R12). -/
theorem V_range (hn : 0 < n) (x : Limbs n) :
    -((2 ^ (8 * n - 1) : Nat) : Int) ≤ x.V ∧ x.V < ((2 ^ (8 * n - 1) : Nat) : Int) := by
  have hU := x.U_lt
  have hhalf := half_add_half hn
  cases h : x.sign with
  | false =>
    have := (sign_false_iff_U hn x).1 h
    rw [V_of_sign_false hn h]; omega
  | true =>
    have := (sign_iff_U hn x).1 h
    rw [V_of_sign_true hn h]; omega

/-- The signed and the unsigned reading are congruent (R12). -/
theorem V_emod (x : Limbs n) : x.V % ((2 ^ (8 * n) : Nat) : Int) = x.U := by
  have hU := x.U_lt
  have h : ((x.U : Int)) % ((2 ^ (8 * n) : Nat) : Int) = x.U := Int.emod_eq_of_lt (by omega) (by omega)
  unfold V
  split
  · exact h
  · rw [Int.sub_emod_right, h]

/-- `V` is injective (R14). -/
theorem V_injective {x y : Limbs n} (h : x.V = y.V) : x = y := by
  apply U_injective
  have hx := x.V_emod
  have hy := y.V_emod
  rw [h, hy] at hx
  exact_mod_cast hx.symm

theorem V_inj {x y : Limbs n} : x.V = y.V ↔ x = y := ⟨V_injective, fun h => h ▸ rfl⟩

theorem U_eq_zero {x : Limbs n} : x.U = 0 ↔ x = zero n := by rw [← U_inj, U_zero]

theorem V_zero (n : Nat) : (zero n).V = 0 := by simp [V]

theorem V_eq_zero {x : Limbs n} : x.V = 0 ↔ x = zero n := by rw [← V_inj, V_zero]

/-- A number in `MIN .. MAX` that is congruent to `U(x)` is `V(x)` (R77). -/
theorem V_eq_of_emod (hn : 0 < n) (x : Limbs n) {v : Int} (hlo : -((2 ^ (8 * n - 1) : Nat) : Int) ≤ v)
    (hhi : v < ((2 ^ (8 * n - 1) : Nat) : Int)) (h : (x.U : Int) = v % ((2 ^ (8 * n) : Nat) : Int)) : x.V = v := by
  have hr := x.V_range hn
  have hhalf := half_add_half hn
  have hm := x.V_emod
  rw [h] at hm
  obtain ⟨k, hk⟩ : ((2 ^ (8 * n) : Nat) : Int) ∣ x.V - v := Int.ModEq.dvd (Int.ModEq.symm hm)
  have hpos : (0 : Int) < ((2 ^ (8 * n) : Nat) : Int) := by positivity
  have hk0 : k = 0 := by
    have h1 : ((2 ^ (8 * n) : Nat) : Int) * k < ((2 ^ (8 * n) : Nat) : Int) * 1 := by omega
    have h2 : ((2 ^ (8 * n) : Nat) : Int) * (-1) < ((2 ^ (8 * n) : Nat) : Int) * k := by omega
    have h3 := lt_of_mul_lt_mul_left h1 hpos.le
    have h4 := lt_of_mul_lt_mul_left h2 hpos.le
    omega
  rw [hk0, mul_zero] at hk
  omega

theorem U_ofInt (n : Nat) (v : Int) : ((ofInt n v).U : Int) = v % ((2 ^ (8 * n) : Nat) : Int) := by
  have hpos : (0 : Int) < ((2 ^ (8 * n) : Nat) : Int) := by positivity
  have h1 := Int.emod_nonneg v hpos.ne'
  have h2 := Int.emod_lt_of_pos v hpos
  rw [ofInt, U_wide_of_lt (by omega)]
  omega

/-- The value written as a numeral in `MIN .. MAX` has exactly that reading (R52). -/
theorem V_ofInt (hn : 0 < n) {v : Int} (hlo : -((2 ^ (8 * n - 1) : Nat) : Int) ≤ v)
    (hhi : v < ((2 ^ (8 * n - 1) : Nat) : Int)) : (ofInt n v).V = v :=
  V_eq_of_emod hn _ hlo hhi (U_ofInt n v)

end Limbs

theorem SIZE_pos : 0 < Config.SIZE := by decide

end Sys2Proof
end

