-- ==== Sys2Proof/Laws/Complement.lean ====
section
/-! SUPPORT. What the complement engine computes (40_complement.md rules R57, R58). -/

namespace Sys2Proof.Machine

open Sys2Proof.Limbs

theorem neg_emod_emod (a m : Int) : -(a % m) % m = -a % m := Int.ModEq.neg (Int.mod_modEq a m)

theorem limbsToNat_invert (x : List Byte) : limbsToNat (invert x) + limbsToNat x + 1 = 256 ^ x.length := by
  induction x with
  | nil => simp [invert, limbsToNat]
  | cons b bs ih =>
    have := b.isLt
    simp only [invert, limbsToNat, List.length_cons, pow_succ, BitVec.toNat_ofNat]
    omega

/-- The ripple increment adds the carry modulo the width. -/
theorem limbsToNat_addCarry (x : List Byte) (c : Nat) :
    limbsToNat (addCarry x c) = (limbsToNat x + c) % 256 ^ x.length := by
  induction x generalizing c with
  | nil => simp [addCarry, limbsToNat, Nat.mod_one]
  | cons b bs ih =>
    have h : (b.toNat + c) / 256 + limbsToNat bs = (b.toNat + 256 * limbsToNat bs + c) / 256 := by omega
    rw [addCarry, limbsToNat, ih, limbsToNat, List.length_cons, pow_succ', Nat.mod_mul, Nat.add_comm (limbsToNat bs),
      h, BitVec.toNat_ofNat]
    omega

variable {n : Nat}

/-- The closed form of `negate` (R57). -/
theorem U_negate (x : Limbs n) : (negate x).U = (2 ^ (8 * n) - x.U) % 2 ^ (8 * n) := by
  have h := limbsToNat_invert x.list
  have hU := x.U_lt
  rw [x.length_eq] at h
  rw [two_pow_eight_mul] at hU ⊢
  change limbsToNat (addCarry (invert x.list) 1) = _
  rw [limbsToNat_addCarry, invert_length, x.length_eq]
  change _ + x.U + 1 = _ at h
  congr 1
  omega

theorem U_negate_emod (x : Limbs n) : ((negate x).U : Int) = (-(x.U : Int)) % ((2 ^ (8 * n) : Nat) : Int) := by
  have hU := x.U_lt
  rw [U_negate, Int.natCast_emod, Nat.cast_sub hU.le, sub_eq_neg_add, Int.add_emod_right]

theorem U_negate_of_pos {x : Limbs n} (h : 0 < x.U) : (negate x).U = 2 ^ (8 * n) - x.U := by
  have hU := x.U_lt
  rw [U_negate, Nat.mod_eq_of_lt (by omega)]

theorem negate_zero (n : Nat) : negate (Limbs.zero n) = Limbs.zero n := by
  apply U_injective; simp [U_negate]

theorem negate_negate (x : Limbs n) : negate (negate x) = x := by
  apply U_injective
  have hU := x.U_lt
  rcases Nat.eq_zero_or_pos x.U with h | h
  · rw [U_eq_zero.1 h, negate_zero, negate_zero]
  · rw [U_negate, U_negate_of_pos h, Nat.sub_sub_self hU.le, Nat.mod_eq_of_lt hU]

/-- The negation of every value but `MIN` is exact (R57 (a)). -/
theorem V_negate (hn : 0 < n) {x : Limbs n} (h : x.V ≠ -((2 ^ (8 * n - 1) : Nat) : Int)) :
    (negate x).V = -x.V := by
  have hr := x.V_range hn
  refine V_eq_of_emod hn _ (by omega) (by omega) ?_
  rw [U_negate_emod, ← x.V_emod, neg_emod_emod]

/-- `mag` is the absolute value, read unsigned, also for `MIN` (R58). -/
theorem U_mag (hn : 0 < n) (x : Limbs n) : (mag x).U = x.V.natAbs := by
  have hU := x.U_lt
  cases h : x.sign with
  | false => rw [mag, h, V_of_sign_false hn h]; simp
  | true =>
    have hs := (sign_iff_U hn x).1 h
    have hp : 0 < 2 ^ (8 * n - 1) := by positivity
    rw [mag, h, V_of_sign_true hn h, if_pos rfl, U_negate_of_pos (by omega)]
    omega

theorem U_mag_le (hn : 0 < n) (x : Limbs n) : (mag x).U ≤ 2 ^ (8 * n - 1) := by
  have := x.V_range hn
  rw [U_mag hn]; omega

end Sys2Proof.Machine
end

