-- ==== Sys2Proof/Laws/Additive.lean ====
section
/-! SUPPORT. What the wide adder computes (42_additive.md rule R77). -/

namespace Sys2Proof.Machine

open Sys2Proof.Limbs

/-- The ripple adder adds modulo the width (R77). -/
theorem limbsToNat_addLimbs (as bs : List Byte) (c : Nat) (h : as.length = bs.length) :
    limbsToNat (addLimbs as bs c) = (limbsToNat as + limbsToNat bs + c) % 256 ^ as.length := by
  induction as generalizing bs c with
  | nil => simp [addLimbs, limbsToNat, Nat.mod_one]
  | cons a as ih =>
    cases bs with
    | nil => simp at h
    | cons b bs =>
      have hd : limbsToNat as + limbsToNat bs + (a.toNat + b.toNat + c) / 256 =
          (a.toNat + 256 * limbsToNat as + (b.toNat + 256 * limbsToNat bs) + c) / 256 := by omega
      rw [addLimbs, limbsToNat, ih bs _ (by simpa using h), limbsToNat, limbsToNat, List.length_cons, pow_succ',
        Nat.mod_mul, hd, BitVec.toNat_ofNat]
      omega

variable {n : Nat}

/-- The closed form of `add` (R77). -/
theorem U_add (a b : Limbs n) : (add a b).U = (a.U + b.U) % 2 ^ (8 * n) := by
  rw [two_pow_eight_mul]
  change limbsToNat (addLimbs a.list b.list 0) = _
  rw [limbsToNat_addLimbs _ _ _ (a.length_eq.trans b.length_eq.symm), a.length_eq]
  rfl

theorem U_add_emod (a b : Limbs n) : ((add a b).U : Int) = (a.V + b.V) % ((2 ^ (8 * n) : Nat) : Int) := by
  rw [U_add, Int.natCast_emod, Nat.cast_add, ← a.V_emod, ← b.V_emod, ← Int.add_emod]

/-- The closed form of `subtract` (R77). -/
theorem U_subtract_emod (a b : Limbs n) : ((subtract a b).U : Int) = (a.V - b.V) % ((2 ^ (8 * n) : Nat) : Int) := by
  rw [subtract, U_add, Int.natCast_emod, Nat.cast_add, U_negate_emod, ← a.V_emod, ← b.V_emod, neg_emod_emod,
    ← Int.add_emod, sub_eq_add_neg]

/-- The sum is exact when it is representable (R77). -/
theorem V_add (hn : 0 < n) {a b : Limbs n} (hlo : -((2 ^ (8 * n - 1) : Nat) : Int) ≤ a.V + b.V)
    (hhi : a.V + b.V < ((2 ^ (8 * n - 1) : Nat) : Int)) : (add a b).V = a.V + b.V :=
  V_eq_of_emod hn _ hlo hhi (U_add_emod a b)

/-- The difference is exact when it is representable (R77). -/
theorem V_subtract (hn : 0 < n) {a b : Limbs n} (hlo : -((2 ^ (8 * n - 1) : Nat) : Int) ≤ a.V - b.V)
    (hhi : a.V - b.V < ((2 ^ (8 * n - 1) : Nat) : Int)) : (subtract a b).V = a.V - b.V :=
  V_eq_of_emod hn _ hlo hhi (U_subtract_emod a b)

end Sys2Proof.Machine
end

