-- ==== Sys2Proof/Laws/Bounds.lean ====
section
/-! SUPPORT. The named values at the unit's width (00_scope.md rule R7): readings of `ZERO`, `ONE`, `MIN` and `MAX`, and the
range in the terms of Config. -/

namespace Sys2Proof

open Sys2Proof.Limbs

theorem MODULUS_eq_HALF : Config.MODULUS = 2 * Config.HALF := by
  rw [Config.MODULUS_eq, Config.HALF_eq, half_add_half SIZE_pos, two_mul]

/-- The half range is far above every small constant. -/
theorem small_le_HALF : 2 ^ 32 ≤ Config.HALF := by
  rw [Config.HALF_eq]
  exact Nat.pow_le_pow_right (by norm_num) (by decide)

namespace WideInt

theorem MIN_eq : Config.MIN = -(Config.HALF : Int) := rfl

theorem MAX_eq : Config.MAX = (Config.HALF : Int) - 1 := rfl

theorem U_lt (x : WideInt) : x.U < Config.MODULUS := by
  rw [Config.MODULUS_eq]; exact Limbs.U_lt x

/-- `wide` of a number that fits the width has that unsigned reading. -/
theorem U_wide {u : Nat} (h : u < Config.MODULUS) : (Limbs.wide Config.SIZE u).U = u := by
  rw [Config.MODULUS_eq] at h; exact U_wide_of_lt h

theorem U_ofInt (v : Int) : ((Limbs.ofInt Config.SIZE v).U : Int) = v % (Config.MODULUS : Int) := by
  rw [Config.MODULUS_eq]; exact Limbs.U_ofInt _ v

theorem V_range (x : WideInt) : Config.MIN ≤ x.V ∧ x.V ≤ Config.MAX := by
  have h := Limbs.V_range SIZE_pos x
  rw [← Config.HALF_eq] at h
  unfold Config.MIN Config.MAX
  omega

theorem V_emod (x : WideInt) : x.V % (Config.MODULUS : Int) = x.U := by
  rw [Config.MODULUS_eq]; exact Limbs.V_emod x

/-- The one number in `MIN .. MAX` congruent to the unsigned reading is the value (R77). -/
theorem V_eq_of_emod (x : WideInt) {v : Int} (hlo : Config.MIN ≤ v) (hhi : v ≤ Config.MAX)
    (h : (x.U : Int) = v % (Config.MODULUS : Int)) : x.V = v := by
  rw [MIN_eq, Config.HALF_eq] at hlo
  rw [MAX_eq, Config.HALF_eq] at hhi
  rw [Config.MODULUS_eq] at h
  exact Limbs.V_eq_of_emod SIZE_pos x hlo (by omega) h

/-- Every number in `MIN .. MAX` is the value of a WideInt (R14). -/
theorem V_ofInt {v : Int} (hlo : Config.MIN ≤ v) (hhi : v ≤ Config.MAX) : (Limbs.ofInt Config.SIZE v).V = v :=
  V_eq_of_emod _ hlo hhi (U_ofInt v)

/-- Two values are equal when their signed readings are congruent. -/
theorem eq_of_emod {x y : WideInt} (h : x.V % (Config.MODULUS : Int) = y.V % (Config.MODULUS : Int)) : x = y := by
  rw [V_emod, V_emod] at h
  exact Limbs.U_injective (by exact_mod_cast h)

theorem U_ZERO : ZERO.U = 0 := U_zero

theorem U_ONE : ONE.U = 1 :=
  U_wide (by have := MODULUS_eq_HALF; have := small_le_HALF; omega)

theorem U_MIN : MIN.U = Config.HALF :=
  U_wide (by have := MODULUS_eq_HALF; have := small_le_HALF; omega)

theorem U_MAX : MAX.U = Config.HALF - 1 :=
  U_wide (by have := MODULUS_eq_HALF; have := small_le_HALF; omega)

theorem V_ZERO : ZERO.V = 0 := V_zero _

theorem V_of_U_small {x : WideInt} (h : x.U < Config.HALF) : x.V = x.U := by
  have h1 := MODULUS_eq_HALF
  exact V_eq_of_emod x (by rw [MIN_eq]; omega) (by rw [MAX_eq]; omega) (by rw [Int.emod_eq_of_lt] <;> omega)

theorem V_ONE : ONE.V = 1 := by
  rw [V_of_U_small (by have := small_le_HALF; rw [U_ONE]; omega), U_ONE]; rfl

theorem V_MAX : MAX.V = Config.MAX := by
  have := small_le_HALF
  rw [V_of_U_small (by rw [U_MAX]; omega), U_MAX, MAX_eq]; omega

theorem V_MIN : MIN.V = Config.MIN := by
  have := small_le_HALF
  have h := MODULUS_eq_HALF
  refine V_eq_of_emod _ (by omega) (by rw [MIN_eq, MAX_eq]; omega) ?_
  rw [U_MIN, MIN_eq, ← Int.add_emod_right, Int.emod_eq_of_lt (by omega) (by omega)]
  omega

end WideInt

end Sys2Proof
end

