-- ==== Sys2Proof/Laws/Comparison.lean ====
section
/-! SUPPORT. What the comparator decides (44_comparison.md rules R96, R97, R104). -/

namespace Sys2Proof.Machine

open Sys2Proof.Limbs

theorem equalLimbs_iff (as bs : List Byte) : equalLimbs as bs = true ↔ as = bs := by
  induction as generalizing bs with
  | nil => cases bs <;> simp [equalLimbs]
  | cons a as ih => cases bs <;> simp [equalLimbs, ih]

variable {n : Nat}

/-- `equals` decides equality of the values (R97). -/
theorem equals_iff (a b : Limbs n) : equals a b = true ↔ a = b := by
  rw [equals, equalLimbs_iff]
  exact ⟨ext_list, fun h => h ▸ rfl⟩

/-- `is_zero` decides whether the value is zero (R96). -/
theorem isZero_iff (x : Limbs n) : isZero x = true ↔ x = Limbs.zero n := equals_iff x _

theorem isZero_false_iff (x : Limbs n) : isZero x = false ↔ x ≠ Limbs.zero n := by
  rw [← Bool.not_eq_true, Ne, isZero_iff]

theorem isZero_iff_U (x : Limbs n) : isZero x = true ↔ x.U = 0 := by rw [isZero_iff, U_eq_zero]

theorem limbsToNat_snoc_lt {x y : List Byte} (hl : x.length = y.length) {a b : Byte} (h : a.toNat < b.toNat) :
    limbsToNat (x ++ [a]) < limbsToNat (y ++ [b]) := by
  have hx := limbsToNat_lt x
  rw [limbsToNat_append, limbsToNat_append, ← hl]
  have : 256 ^ x.length * (limbsToNat [a] + 1) ≤ 256 ^ x.length * limbsToNat [b] :=
    Nat.mul_le_mul_left _ (by simp only [limbsToNat]; omega)
  rw [Nat.mul_add] at this
  omega

/-- The scan from the top limb down compares the numbers the limb lists denote (R104). -/
theorem scan_reverse (x y : List Byte) (hl : x.length = y.length) :
    scan x.reverse y.reverse =
      if limbsToNat x = limbsToNat y then none else some (decide (limbsToNat x < limbsToNat y)) := by
  induction x using List.reverseRecOn generalizing y with
  | nil =>
    cases y with
    | nil => rfl
    | cons b bs => simp at hl
  | append_singleton x a ih =>
    rcases List.eq_nil_or_concat' y with rfl | ⟨y, b, rfl⟩
    · simp at hl
    have hl' : x.length = y.length := by simpa using hl
    rw [List.reverse_concat, List.reverse_concat, scan]
    by_cases hab : a = b
    · subst hab
      rw [if_pos rfl, ih y hl', limbsToNat_append, limbsToNat_append, hl']
      simp
    · have hne : a.toNat ≠ b.toNat := fun h => hab (BitVec.eq_of_toNat_eq h)
      rw [if_neg hab]
      rcases Nat.lt_or_gt_of_ne hne with h | h
      · have := limbsToNat_snoc_lt hl' h
        rw [if_neg (by omega)]; simp [h, this]
      · have := limbsToNat_snoc_lt hl'.symm h
        rw [if_neg (by omega), Option.some.injEq, decide_eq_decide]
        exact iff_of_false (by omega) (by omega)

/-- `less_than` decides the order of the values (R104). -/
theorem lessThan_iff (hn : 0 < n) (a b : Limbs n) : lessThan a b = true ↔ a.V < b.V := by
  have ha := sign_iff_V_neg hn a
  have hb := sign_iff_V_neg hn b
  unfold lessThan
  rw [scan_reverse _ _ ((mag a).length_eq.trans (mag b).length_eq.symm)]
  have hma : limbsToNat (mag a).list = a.V.natAbs := U_mag hn a
  have hmb : limbsToNat (mag b).list = b.V.natAbs := U_mag hn b
  rw [hma, hmb]
  cases hsa : a.sign <;> cases hsb : b.sign <;> simp only [hsa, hsb] at ha hb <;> simp at ha hb ⊢
  · split_ifs with he <;> simp <;> omega
  · omega
  · omega
  · split_ifs with he <;> simp <;> omega

theorem lessThan_eq (hn : 0 < n) (a b : Limbs n) : lessThan a b = decide (a.V < b.V) := by
  rw [Bool.eq_iff_iff, lessThan_iff hn, decide_eq_true_iff]

end Sys2Proof.Machine
end

