-- ==== Sys2Proof/Laws/Multiplicative.lean ====
section
/-! SUPPORT. What the multiplier and the divider compute (43_multiplicative.md rules R81, R84, R91, R94). -/

namespace Sys2Proof.Machine

open Sys2Proof.Limbs

/-! ### The multiplier -/

/-- A row adds `a * U(b)` to the accumulator without loss (R81). -/
theorem limbsToNat_mulRow (a : Byte) (bs acc : List Byte) (c : Nat) (h : bs.length = acc.length) (hc : c < 256) :
    limbsToNat (mulRow a bs acc c) = limbsToNat acc + a.toNat * limbsToNat bs + c := by
  induction bs generalizing acc c with
  | nil =>
    cases acc with
    | nil => simp [mulRow, limbsToNat, Nat.mod_eq_of_lt hc]
    | cons x acc => simp at h
  | cons b bs ih =>
    cases acc with
    | nil => simp at h
    | cons x acc =>
      have ha := a.isLt
      have hb := b.isLt
      have hx := x.isLt
      have hab : a.toNat * b.toNat ≤ 255 * 255 := Nat.mul_le_mul (by omega) (by omega)
      have hq : (x.toNat + a.toNat * b.toNat + c) / 256 < 256 := by omega
      have hd : a.toNat * (b.toNat + 256 * limbsToNat bs) = a.toNat * b.toNat + 256 * (a.toNat * limbsToNat bs) := by
        ring
      rw [mulRow, limbsToNat, ih acc _ (by simpa using h) hq, limbsToNat, limbsToNat, hd, BitVec.toNat_ofNat]
      omega

/-- After all rows the accumulator holds the full double-width product (R81). -/
theorem limbsToNat_mulRows (as bs acc : List Byte) (h : bs.length = acc.length) :
    limbsToNat (mulRows as bs acc) = limbsToNat acc + limbsToNat as * limbsToNat bs := by
  induction as generalizing acc with
  | nil => simp [mulRows, limbsToNat]
  | cons a as ih =>
    have hr := mulRow_length a bs acc 0 h
    have hv := limbsToNat_mulRow a bs acc 0 h (by omega)
    cases hm : mulRow a bs acc 0 with
    | nil => simp [hm] at hr
    | cons lo window =>
      rw [hm] at hr hv
      simp only [List.length_cons, Nat.add_right_cancel_iff] at hr
      simp only [limbsToNat, Nat.add_zero] at hv
      simp only [mulRows, hm, limbsToNat, ih window hr.symm]
      have : (a.toNat + 256 * limbsToNat as) * limbsToNat bs =
          a.toNat * limbsToNat bs + 256 * (limbsToNat as * limbsToNat bs) := by ring
      omega

variable {n : Nat}

/-- The closed form of `multiply` (R94). -/
theorem U_multiply (a b : Limbs n) : (multiply a b).U = a.U * b.U % 2 ^ (8 * n) := by
  have hl : b.list.length = (List.replicate n (0 : Byte)).length := by simp [b.length_eq]
  rw [two_pow_eight_mul]
  change limbsToNat ((mulRows a.list b.list (List.replicate n 0)).take n) = _
  rw [limbsToNat_take _ _ (by rw [mulRows_length _ _ _ hl]; simp), limbsToNat_mulRows _ _ _ hl,
    limbsToNat_replicate_zero, Nat.zero_add]
  rfl

theorem U_multiply_emod (a b : Limbs n) :
    ((multiply a b).U : Int) = (a.V * b.V) % ((2 ^ (8 * n) : Nat) : Int) := by
  rw [U_multiply, Int.natCast_emod, Nat.cast_mul, ← a.V_emod, ← b.V_emod, ← Int.mul_emod]

/-- The product is exact when it is representable (R94). -/
theorem V_multiply (hn : 0 < n) {a b : Limbs n} (hlo : -((2 ^ (8 * n - 1) : Nat) : Int) ≤ a.V * b.V)
    (hhi : a.V * b.V < ((2 ^ (8 * n - 1) : Nat) : Int)) : (multiply a b).V = a.V * b.V :=
  V_eq_of_emod hn _ hlo hhi (U_multiply_emod a b)

/-! ### The unsigned divider core -/

/-- The invariant of the restoring division (R84): the quotient and remainder of the bits taken so far. -/
theorem udivLoop_spec (u d : Nat) (hd : 0 < d) (k q rem : Nat) (hq : q = u / 2 ^ k / d) (hr : rem = u / 2 ^ k % d) :
    udivLoop u d k q rem = (u / d, u % d) := by
  induction k generalizing q rem with
  | zero => simp [udivLoop, hq, hr]
  | succ k ih =>
    have hbit : 2 * (u / 2 ^ (k + 1)) + (u.testBit k).toNat = u / 2 ^ k := by
      rw [pow_succ, ← Nat.div_div_eq_div_mul, Nat.testBit_eq_decide_div_mod_eq]
      rcases Nat.mod_two_eq_zero_or_one (u / 2 ^ k) with h | h <;> simp [h] <;> omega
    generalize hx : u / 2 ^ (k + 1) = x at *
    have hdm := Nat.div_add_mod x d
    have hlt := Nat.mod_lt x hd
    have hb : (u.testBit k).toNat ≤ 1 := by cases u.testBit k <;> simp
    have hexp : u / 2 ^ k = 2 * rem + (u.testBit k).toNat + d * (2 * q) := by
      rw [← hbit, hr, hq]
      have : d * (2 * (x / d)) = 2 * (d * (x / d)) := by ring
      omega
    rw [udivLoop]
    split_ifs with hle
    · have hexp' : u / 2 ^ k = 2 * rem + (u.testBit k).toNat - d + d * (2 * q + 1) := by
        rw [hexp, Nat.mul_add d]; omega
      refine ih _ _ ?_ ?_
      · rw [hexp', Nat.add_mul_div_left _ _ hd, Nat.div_eq_of_lt (by omega)]; omega
      · rw [hexp', Nat.add_mul_mod_self_left, Nat.mod_eq_of_lt (by omega)]
    · refine ih _ _ ?_ ?_
      · rw [hexp, Nat.add_mul_div_left _ _ hd, Nat.div_eq_of_lt (by omega)]; omega
      · rw [hexp, Nat.add_mul_mod_self_left, Nat.mod_eq_of_lt (by omega)]

/-- `udivrem` is Euclidean division of the unsigned readings (R84). -/
theorem U_udivrem (x d : Limbs n) (hd : 0 < d.U) :
    (udivrem x d).1.U = x.U / d.U ∧ (udivrem x d).2.U = x.U % d.U := by
  have hx := x.U_lt
  have hs := udivLoop_spec x.U d.U hd (8 * n) 0 0 (by rw [Nat.div_eq_of_lt hx, Nat.zero_div])
    (by rw [Nat.div_eq_of_lt hx, Nat.zero_mod])
  have h1 : x.U / d.U < 2 ^ (8 * n) := lt_of_le_of_lt (Nat.div_le_self _ _) hx
  have h2 : x.U % d.U < 2 ^ (8 * n) := lt_of_le_of_lt (Nat.mod_le _ _) hx
  simp only [udivrem, hs]
  exact ⟨U_wide_of_lt h1, U_wide_of_lt h2⟩

/-! ### The signed operations -/

theorem mag_pos (hn : 0 < n) {b : Limbs n} (hb : b.V ≠ 0) : 0 < (mag b).U := by
  rw [U_mag hn]; omega

/-- The closed form of `divide`: the quotient rounded toward zero, modulo the width (R91). -/
theorem U_divide (hn : 0 < n) (a : Limbs n) {b : Limbs n} (hb : b.V ≠ 0) :
    ((divide a b).U : Int) = (a.V.tdiv b.V) % ((2 ^ (8 * n) : Nat) : Int) := by
  have hq := (U_udivrem (mag a) (mag b) (mag_pos hn hb)).1
  rw [U_mag hn, U_mag hn] at hq
  have hlt := (udivrem (mag a) (mag b)).1.U_lt
  have hpos : ((udivrem (mag a) (mag b)).1.U : Int) % ((2 ^ (8 * n) : Nat) : Int) = (udivrem (mag a) (mag b)).1.U :=
    Int.emod_eq_of_lt (by omega) (by omega)
  have ha := sign_iff_V_neg hn a
  have hb' := sign_iff_V_neg hn b
  unfold divide
  cases hsa : a.sign <;> cases hsb : b.sign <;> simp only [hsa, hsb] at ha hb' <;>
    simp at ha hb' <;> simp only [Bool.xor_false, Bool.xor_true, Bool.not_false, Bool.not_true, if_true,
      Bool.false_eq_true, if_false]
  · obtain ⟨x, hx⟩ := Int.eq_ofNat_of_zero_le ha
    obtain ⟨y, hy⟩ := Int.eq_ofNat_of_zero_le hb'
    rw [← hpos, hq, hx, hy]; simp [Int.tdiv]
  · obtain ⟨x, hx⟩ := Int.eq_ofNat_of_zero_le ha
    obtain ⟨y, hy⟩ := Int.eq_ofNat_of_zero_le (by omega : 0 ≤ -b.V)
    rw [U_negate_emod, hq, hx, show b.V = -(y : Int) by omega, Int.tdiv_neg]
    simp [Int.tdiv]
  · obtain ⟨x, hx⟩ := Int.eq_ofNat_of_zero_le (by omega : 0 ≤ -a.V)
    obtain ⟨y, hy⟩ := Int.eq_ofNat_of_zero_le hb'
    rw [U_negate_emod, hq, hy, show a.V = -(x : Int) by omega, Int.neg_tdiv]
    simp [Int.tdiv]
  · obtain ⟨x, hx⟩ := Int.eq_ofNat_of_zero_le (by omega : 0 ≤ -a.V)
    obtain ⟨y, hy⟩ := Int.eq_ofNat_of_zero_le (by omega : 0 ≤ -b.V)
    rw [← hpos, hq, show a.V = -(x : Int) by omega, show b.V = -(y : Int) by omega, Int.neg_tdiv, Int.tdiv_neg, neg_neg]
    simp [Int.tdiv]

/-- The quotient is exact when it is representable, which fails for `MIN` by -1 only (R91, R92). -/
theorem V_divide (hn : 0 < n) {a b : Limbs n} (hb : b.V ≠ 0)
    (h : ¬(a.V = -((2 ^ (8 * n - 1) : Nat) : Int) ∧ b.V = -1)) : (divide a b).V = a.V.tdiv b.V := by
  have hr := a.V_range hn
  have habs : (a.V.tdiv b.V).natAbs = a.V.natAbs / b.V.natAbs := Int.natAbs_tdiv ..
  have hle : a.V.natAbs / b.V.natAbs ≤ a.V.natAbs := Nat.div_le_self _ _
  have hp : 0 < 2 ^ (8 * n - 1) := by positivity
  refine V_eq_of_emod hn _ (by omega) ?_ (U_divide hn a hb)
  by_cases hmin : a.V = -((2 ^ (8 * n - 1) : Nat) : Int)
  · by_cases h1 : b.V = 1
    · rw [h1, Int.tdiv_one]; omega
    · have hb2 : 2 ≤ b.V.natAbs := by omega
      have : a.V.natAbs / b.V.natAbs ≤ a.V.natAbs / 2 := Nat.div_le_div_left hb2 (by omega)
      omega
  · omega

/-- The closed form of `remainder` (R91). -/
theorem V_remainder (hn : 0 < n) (a : Limbs n) {b : Limbs n} (hb : b.V ≠ 0) :
    (remainder a b).V = a.V.tmod b.V := by
  have hm := (U_udivrem (mag a) (mag b) (mag_pos hn hb)).2
  rw [U_mag hn, U_mag hn] at hm
  have hr := b.V_range hn
  have hlt : a.V.natAbs % b.V.natAbs < b.V.natAbs := Nat.mod_lt _ (by omega)
  have ha := sign_iff_V_neg hn a
  have habs : (a.V.tmod b.V).natAbs = a.V.natAbs % b.V.natAbs := Int.natAbs_tmod ..
  have hw : a.V.natAbs % b.V.natAbs < 2 ^ (8 * n) := by have := half_add_half hn; omega
  unfold remainder
  cases hsa : a.sign <;> simp only [hsa] at ha <;> simp at ha <;> simp only [Bool.false_eq_true, if_false, if_true]
  · have h0 : 0 ≤ a.V.tmod b.V := Int.tmod_nonneg _ ha
    refine V_eq_of_emod hn _ (by omega) (by omega) ?_
    rw [hm, Int.emod_eq_of_lt h0 (by omega)]; omega
  · have h0 : 0 ≤ (-a.V).tmod b.V := Int.tmod_nonneg _ (by omega)
    rw [Int.neg_tmod] at h0
    refine V_eq_of_emod hn _ (by omega) (by omega) ?_
    rw [U_negate_emod, hm]; congr 1; omega

end Sys2Proof.Machine
end

