-- ==== Sys2Proof/Laws/Conversion.lean ====
section
/-! SUPPORT. What the integer loader and the decimal codec compute (41_construction_conversion.md rules R63, R66 to R68, R72). -/

namespace Sys2Proof.Machine

open Sys2Proof.Limbs

/-! ### The integer loader -/

/-- R44's reading of `i` is the two's complement reading. -/
theorem intValue_eq (i : BitVec 32) : intValue i = i.toInt := by
  have h := i.isLt
  unfold intValue
  rw [BitVec.toInt_eq_toNat_cond, Nat.shiftRight_eq_div_pow]
  split <;> omega

theorem intValue_range (i : BitVec 32) : -(2 ^ 31 : Int) ≤ intValue i ∧ intValue i < 2 ^ 31 := by
  have h := i.isLt
  unfold intValue
  rw [Nat.shiftRight_eq_div_pow]
  omega

variable {n : Nat}

/-- The four low limbs hold a 32-bit magnitude (R61). -/
theorem U_loadMagnitude (hn : 4 ≤ n) {m : Nat} (hm : m < 2 ^ 32) : (loadMagnitude n m).U = m := by
  have hbig : m < 2 ^ (8 * n) := lt_of_lt_of_le hm (Nat.pow_le_pow_right (by omega) (by omega))
  have hx : loadMagnitude n m = Limbs.wide n m := by
    refine ext_l fun i hi => BitVec.eq_of_toNat_eq ?_
    rw [loadMagnitude, l_ofFn _ hi, l_toNat, U_wide_of_lt hbig]
    split_ifs with h4
    · simp
    · have : m < 256 ^ i := lt_of_lt_of_le hm
        (by rw [show (2 : Nat) ^ 32 = 256 ^ 4 by norm_num]; exact Nat.pow_le_pow_right (by omega) (by omega))
      simp [Nat.div_eq_of_lt this]
  rw [hx, U_wide_of_lt hbig]

/-- FROMINT is sign extension (R63). -/
theorem V_fromInteger (hn : 4 ≤ n) (i : BitVec 32) : (fromInteger n i).V = intValue i := by
  have hr := intValue_range i
  have hp : 2 ^ 31 ≤ 2 ^ (8 * n - 1) := Nat.pow_le_pow_right (by omega) (by omega)
  have hm : (loadMagnitude n (intValue i).natAbs).U = (intValue i).natAbs := U_loadMagnitude hn (by omega)
  have hhalf := half_add_half (n := n) (by omega)
  refine V_eq_of_emod (by omega) _ (by omega) (by omega) ?_
  unfold fromInteger
  split_ifs with h
  · rw [U_negate_emod, hm]; congr 1; omega
  · rw [hm, Int.emod_eq_of_lt (by omega) (by omega)]; omega

/-! ### Decimal parsing -/

theorem U_ten (hn : 0 < n) : (Limbs.ten n).U = 10 :=
  U_wide_of_lt (lt_of_lt_of_le (by norm_num) (Nat.pow_le_pow_right (by omega) (by omega : 8 ≤ 8 * n)))

/-- One digit step is `(10*acc + d) mod 2^W` (R67). -/
theorem U_accumulate (hn : 0 < n) (acc : Limbs n) (c : Byte) :
    (accumulate acc c).U = (10 * acc.U + digitValue c) % 2 ^ (8 * n) := by
  rw [accumulate, U_add, U_multiply, U_ten hn, U_wide, ← Nat.add_mod, Nat.mul_comm]

/-- The accumulated value is the digit string's number modulo the width (R67). -/
theorem U_foldl_accumulate (hn : 0 < n) (ds : List Byte) (acc : Limbs n) (v : Nat) (h : acc.U = v % 2 ^ (8 * n)) :
    (ds.foldl accumulate acc).U =
      ds.foldl (fun acc c => 10 * acc + (c.toNat - 0x30)) v % 2 ^ (8 * n) := by
  induction ds generalizing acc v with
  | nil => exact h
  | cons c ds ih =>
    refine ih _ _ ?_
    rw [U_accumulate hn, h]
    rw [Nat.add_mod, Nat.mul_mod_mod, ← Nat.add_mod]
    rfl

theorem U_parseDigits (hn : 0 < n) (ds : List Byte) :
    (ds.foldl accumulate (Limbs.zero n)).U = digitsValue ds % 2 ^ (8 * n) :=
  U_foldl_accumulate hn ds _ 0 (by simp)

theorem isDigit_iff (c : Byte) : isDigit c = true ↔ 0x30 ≤ c.toNat ∧ c.toNat ≤ 0x39 := by
  simp [isDigit, zeroChar, nineChar]

theorem all_isDigit_iff (ds : List Byte) : ds.all isDigit = true ↔ ∀ c ∈ ds, 0x30 ≤ c.toNat ∧ c.toNat ≤ 0x39 := by
  simp only [List.all_eq_true, isDigit_iff]

/-- A digit string has no sign. -/
theorem isNegated_digits {ds : List Byte} (h : DigitString ds) : isNegated ds = false := by
  cases ds with
  | nil => exact absurd rfl h.1
  | cons c ds =>
    have := h.2 c (by simp)
    simp only [isNegated, minusChar, beq_eq_false_iff_ne]
    rintro rfl
    simp at this

theorem isNegated_minus (ds : List Byte) : isNegated (0x2D :: ds) = true := rfl

/-- An unsigned numeral accumulates its number (R68). -/
theorem fromDecimal_digits {ds : List Byte} (h : DigitString ds) :
    fromDecimal n ds = some (ds.foldl accumulate (Limbs.zero n)) := by
  have ha : afterSign ds = ds := by rw [afterSign, isNegated_digits h]; rfl
  have he : ds.isEmpty = false := by simpa using h.1
  rw [fromDecimal, ha, he, (all_isDigit_iff ds).2 h.2, isNegated_digits h]
  rfl

/-- A signed numeral is the negation of its digits' number (R68). -/
theorem fromDecimal_minus {ds : List Byte} (h : DigitString ds) :
    fromDecimal n (0x2D :: ds) = some (negate (ds.foldl accumulate (Limbs.zero n))) := by
  have ha : afterSign (0x2D :: ds) = ds := rfl
  have he : ds.isEmpty = false := by simpa using h.1
  rw [fromDecimal, ha, he, (all_isDigit_iff ds).2 h.2, isNegated_minus]
  rfl

/-- Every text that is not a well-formed numeral is malformed (R66). -/
theorem fromDecimal_eq_none {s : List Byte} (h : ¬WellFormedNumeral s) : fromDecimal n s = none := by
  unfold fromDecimal
  split_ifs with he hd hs
  · rfl
  all_goals first
    | rfl
    | exfalso
      refine h ⟨afterSign s, ⟨by simpa using he, (all_isDigit_iff _).1 hd⟩, ?_⟩
  · cases s with
    | nil => simp [isNegated] at hs
    | cons c s =>
      right
      have hc : c = minusChar := by simpa [isNegated] using hs
      rw [afterSign, hs]
      simp [hc, minusChar]
  · left
    rw [afterSign, if_neg hs]

/-! ### Decimal formatting -/

theorem isZero_of_U {x : Limbs n} (h : x.U ≠ 0) : isZero x = false := by
  rw [← Bool.not_eq_true, isZero_iff_U]; exact h

/-- The character of a digit `d`. -/
theorem digitChar_of_lt {x : Limbs n} (h : x.U < 10) :
    digitChar (x.l 0) = BitVec.ofNat 8 (0x30 + x.U) := by
  refine BitVec.eq_of_toNat_eq ?_
  have hl := l_toNat x 0
  rw [pow_zero, Nat.div_one, Nat.mod_eq_of_lt (by omega)] at hl
  simp [digitChar, zeroChar, hl]

/-- The digit loop writes the decimal digits of the magnitude, most significant first (R71). -/
theorem decimalDigits_eq (hn : 0 < n) (fuel : Nat) (m : Limbs n) (tail : List Byte) (h : m.U < 2 ^ fuel) :
    decimalDigits fuel m tail =
      ((Nat.digits 10 m.U).reverse.map fun d => BitVec.ofNat 8 (0x30 + d)) ++ tail := by
  induction fuel generalizing m tail with
  | zero =>
    have : m.U = 0 := by simpa using h
    simp [decimalDigits, this]
  | succ fuel ih =>
    rw [decimalDigits]
    rcases Nat.eq_zero_or_pos m.U with h0 | hpos
    · rw [if_pos ((isZero_iff_U m).2 h0), h0]; simp
    · obtain ⟨hq, hr⟩ := U_udivrem m (Limbs.ten n) (by rw [U_ten hn]; norm_num)
      rw [U_ten hn] at hq hr
      rw [isZero_of_U hpos.ne', if_neg (by simp), ih _ _ (by rw [hq]; rw [pow_succ] at h; omega),
        digitChar_of_lt (by rw [hr]; omega), hq, hr, Nat.digits_def' (by norm_num) hpos]
      simp

/-- The text of a value is the ordinary decimal numeral of its signed reading (R72). -/
theorem toDecimal_eq (hn : 0 < n) (x : Limbs n) : toDecimal x = decimalNumeral x.V := by
  have hV0 := V_eq_zero (x := x)
  have hlt : (mag x).U < 2 ^ (8 * n) := (mag x).U_lt
  have hs := sign_iff_V_neg hn x
  unfold toDecimal decimalNumeral
  by_cases hz : x.V = 0
  · rw [if_pos ((isZero_iff x).2 (hV0.1 hz)), if_pos hz]; rfl
  · rw [if_neg (by rw [isZero_iff]; exact fun h => hz (hV0.2 h)), if_neg hz, decimalDigits_eq hn _ _ _ hlt, U_mag hn]
    by_cases hneg : x.V < 0
    · rw [if_pos (hs.2 hneg), if_pos hneg]; simp [minusChar]
    · rw [if_neg (fun h => hneg (hs.1 h)), if_neg hneg]; simp

end Sys2Proof.Machine
end

