-- ==== Sys2Proof/Laws/Decode.lean ====
section
/-! SUPPORT. The fields of a packet: what reading one gives on a packet built from its parts (30_encoding.md rule R40). -/

namespace Sys2Proof

/-- The `n` bits above `k` low bits are the number that stands there. -/
theorem field_of_value {p : Packet} {k n lowPart x high : Nat} (hv : p.value = lowPart + 2 ^ k * (x + 2 ^ n * high))
    (hlow : lowPart < 2 ^ k) (hx : x < 2 ^ n) : p.field k n = x := by
  rw [Packet.field, hv, Nat.shiftRight_eq_div_pow, Nat.add_mul_div_left _ _ (by positivity), Nat.div_eq_of_lt hlow,
    Nat.zero_add, Nat.add_mul_mod_self_left, Nat.mod_eq_of_lt hx]

/-- Reading eight bits above `8*k + lo` bits is reading a base-256 digit of the part above `lo`. -/
theorem field_byte (p : Packet) (lo k : Nat) : p.field (8 * k + lo) 8 = p.value / 2 ^ lo / 256 ^ k % 256 := by
  rw [Packet.field, Nat.shiftRight_eq_div_pow, Nat.add_comm, pow_add, pow_mul, ← Nat.div_div_eq_div_mul]
  norm_num

/-- A WideInt field reads back the value that stands there (R29). -/
theorem wideAt_of_value {p : Packet} {lo lowPart high : Nat} {x : WideInt}
    (hv : p.value = lowPart + 2 ^ lo * (x.U + Config.MODULUS * high)) (hlow : lowPart < 2 ^ lo) : p.wideAt lo = x := by
  refine Limbs.ext_l fun i hi => BitVec.eq_of_toNat_eq ?_
  rw [Packet.wideAt, Limbs.l_ofFn _ hi, field_byte, Limbs.l_toNat, hv, Nat.add_mul_div_left _ _ (by positivity),
    Nat.div_eq_of_lt hlow, Nat.zero_add, BitVec.toNat_ofNat, Nat.mod_mod]
  have hW : Config.MODULUS = 256 ^ i * (256 * 256 ^ (Config.SIZE - i - 1)) := by
    rw [← pow_succ', ← pow_add, Config.MODULUS_eq, Limbs.two_pow_eight_mul]
    congr 1; omega
  rw [hW, Nat.mul_assoc, Nat.add_mul_div_left _ _ (by positivity), Nat.mul_assoc, Nat.add_mul_mod_self_left]

/-- A text of `k` bytes read from the number of a limb list of that length is that list. -/
theorem text_of_value {p : Packet} {lo lowPart : Nat} {s : List Byte}
    (hv : p.value = lowPart + 2 ^ lo * limbsToNat s) (hlow : lowPart < 2 ^ lo) :
    ((List.range s.length).map fun k => BitVec.ofNat 8 (p.field (8 * k + lo) 8)) = s := by
  refine List.ext_getElem (by simp) fun i _ hi => BitVec.eq_of_toNat_eq ?_
  have hd := limbsToNat_digit s i
  rw [List.getD_eq_getElem _ _ hi] at hd
  rw [hd]
  simp only [List.getElem_map, List.getElem_range]
  rw [field_byte, hv, Nat.add_mul_div_left _ _ (by positivity), Nat.div_eq_of_lt hlow, Nat.zero_add,
    BitVec.toNat_ofNat, Nat.mod_mod]

/-- A packet decodes to the request it carries exactly when nothing is missing (R42, R50). -/
theorem decode_of_complete {p : Packet} (h : p.missing = none) : decode p = .ok (p.request p.op) := by
  rw [decode, h]

theorem decode_of_missing {p : Packet} {e : DecodeError} (h : p.missing = some e) : decode p = .error e := by
  rw [decode, h]

end Sys2Proof
end

