-- ==== Sys2Proof/Laws/PerInstr.lean ====
section
/-! SUPPORT. Statements about every instruction as syntax, one lemma per constructor. -/

namespace Sys2Proof.Laws.OpcodeField

/-- `REQ[3:0] = op` in every format (R40): the operation field of an encoded request is its operation. -/
def Statement (i : Instr) : Prop := (encode i).op = i.op

theorem op_of_value {p : Packet} (o : Op) (high : Nat) (hv : p.value = o.code + 2 ^ 4 * high) : p.op = o := by
  have h : p.field 0 4 = o.code := by
    rw [Packet.field, hv, Nat.shiftRight_zero, Nat.add_mul_mod_self_left, Nat.mod_eq_of_lt (show o.code < 2 ^ 4 from o.code_lt)]
  rw [Packet.op, h, Op.ofCode_code]

theorem neg (a : WideInt) : Statement (.neg a) := op_of_value .neg _ rfl
theorem fromint (i : BitVec 32) : Statement (.fromint i) := op_of_value .fromint _ rfl
theorem fromdec (s : List Byte) : Statement (.fromdec s) := op_of_value .fromdec _ rfl
theorem todec (a : WideInt) : Statement (.todec a) := op_of_value .todec _ rfl
theorem add (a b : WideInt) : Statement (.add a b) := op_of_value .add _ rfl
theorem sub (a b : WideInt) : Statement (.sub a b) := op_of_value .sub _ rfl
theorem mul (a b : WideInt) : Statement (.mul a b) := op_of_value .mul _ rfl
theorem div (a b : WideInt) : Statement (.div a b) := op_of_value .div _ rfl
theorem rem (a b : WideInt) : Statement (.rem a b) := op_of_value .rem _ rfl
theorem eq (a b : WideInt) : Statement (.eq a b) := op_of_value .eq _ rfl
theorem ne (a b : WideInt) : Statement (.ne a b) := op_of_value .ne _ rfl
theorem lt (a b : WideInt) : Statement (.lt a b) := op_of_value .lt _ rfl
theorem le (a b : WideInt) : Statement (.le a b) := op_of_value .le _ rfl
theorem gt (a b : WideInt) : Statement (.gt a b) := op_of_value .gt _ rfl
theorem ge (a b : WideInt) : Statement (.ge a b) := op_of_value .ge _ rfl
theorem reservedF : Statement .reservedF := op_of_value .reservedF 0 rfl

end Sys2Proof.Laws.OpcodeField
end

