-- ==== Sys2Proof/Laws/State.lean ====
section
/-! SUPPORT. The small lemmas of the state's updates, one per field per update, and the frame of `exec`: a request changes
`RESP` and nothing else (10_state.md rule R22, 20_memory.md rule R34). -/

namespace Sys2Proof.Machine

@[simp] theorem respond_resp (s : State) (x : Payload) : (s.respond x).resp = some (.ok x) := rfl
@[simp] theorem respond_script (s : State) (x : Payload) : (s.respond x).script = s.script := rfl
@[simp] theorem raise_resp (s : State) (e : ErrorCode) : (s.raise e).resp = some (.error e) := rfl
@[simp] theorem raise_script (s : State) (e : ErrorCode) : (s.raise e).script = s.script := rfl
@[simp] theorem applyReset_resp (s : State) : s.applyReset.resp = none := rfl
@[simp] theorem applyReset_script (s : State) : s.applyReset.script = s.script := rfl
@[simp] theorem taken_resp (s : State) : s.taken.resp = s.resp := rfl
@[simp] theorem taken_script (s : State) : s.taken.script = s.script.tail := rfl
@[simp] theorem present_resp (s : State) (p : Packet) : (s.present p).resp = s.resp := rfl
@[simp] theorem present_script (s : State) (p : Packet) : (s.present p).script = .request p :: s.script := rfl
@[simp] theorem present_taken (s : State) (p : Packet) : (s.present p).taken = s := rfl
@[simp] theorem reset_resp : State.reset.resp = none := rfl
@[simp] theorem reset_script : State.reset.script = [] := rfl

/-- Everything a request can do: some response, the same whatever the state was, replaces `RESP` (R17, R22, R34). -/
theorem exec_respond (i : Instr) : ∃ r : Response, ∀ s : State, exec i s = .next { s with resp := some r } := by
  cases i with
  | fromdec t =>
    simp only [exec, execFromdec]
    split
    · exact ⟨_, fun s => rfl⟩
    · exact ⟨_, fun s => rfl⟩
  | div a b =>
    simp only [exec, execDiv]
    split
    · exact ⟨_, fun s => rfl⟩
    · exact ⟨_, fun s => rfl⟩
  | rem a b =>
    simp only [exec, execRem]
    split
    · exact ⟨_, fun s => rfl⟩
    · exact ⟨_, fun s => rfl⟩
  | neg a => exact ⟨_, fun s => rfl⟩
  | fromint i => exact ⟨_, fun s => rfl⟩
  | todec a => exact ⟨_, fun s => rfl⟩
  | add a b => exact ⟨_, fun s => rfl⟩
  | sub a b => exact ⟨_, fun s => rfl⟩
  | mul a b => exact ⟨_, fun s => rfl⟩
  | eq a b => exact ⟨_, fun s => rfl⟩
  | ne a b => exact ⟨_, fun s => rfl⟩
  | lt a b => exact ⟨_, fun s => rfl⟩
  | le a b => exact ⟨_, fun s => rfl⟩
  | gt a b => exact ⟨_, fun s => rfl⟩
  | ge a b => exact ⟨_, fun s => rfl⟩
  | reservedF => exact ⟨_, fun s => rfl⟩

theorem sample_of_decode {p : Packet} {i : Instr} (h : decode p = .ok i) : sample p = .ok i := by
  rw [sample, h]

theorem sample_of_error {p : Packet} {e : DecodeError} (h : decode p = .error e) :
    sample p = .error .incompleteRequest := by
  rw [sample, h]

/-- Everything a step can do (R22, R115): nothing when the host does nothing, a reset, or the transaction of a complete
request. -/
theorem step_cases {s t : State} (h : step s = .next t) :
    (s.script = [] ∧ t = s) ∨
    (∃ rest, s.script = .reset :: rest ∧ t = { resp := none, script := rest }) ∨
    (∃ p rest i, s.script = .request p :: rest ∧ decode p = .ok i ∧ exec i s.taken = .next t) := by
  unfold step at h
  split at h
  · next hs => exact .inl ⟨hs, by cases h; rfl⟩
  · next rest hs =>
    refine .inr (.inl ⟨rest, hs, ?_⟩)
    cases h
    simp only [State.applyReset, State.taken, hs, List.tail_cons]
  · next p rest hs =>
    cases hd : decode p with
    | ok i =>
      rw [sample_of_decode hd] at h
      exact .inr (.inr ⟨p, rest, i, hs, hd, h⟩)
    | error e =>
      rw [sample_of_error hd] at h
      cases h

/-- A run of one step more goes on from the state that the first step answers. -/
theorem run_next (M : Host.Core) (k : Nat) {s t : M.State} (h : M.step s = .next t) : M.run (k + 1) s = M.run k t := by
  rw [Host.Core.run, h]

end Sys2Proof.Machine
end

