-- ==== Sys2Proof/Laws/Unit.lean ====
section
/-! SUPPORT. The closed forms of the blocks at the unit's own width, in the terms of Config: what a proof about the unit
cites. The general forms for any number of limbs stand in the file of each block. -/

namespace Sys2Proof.WideInt

open Sys2Proof.Machine

theorem sign_iff (x : WideInt) : x.sign = true ↔ x.V < 0 := Limbs.sign_iff_V_neg SIZE_pos x

theorem U_negate (x : WideInt) : (negate x).U = (Config.MODULUS - x.U) % Config.MODULUS := by
  rw [Config.MODULUS_eq]; exact Machine.U_negate x

theorem U_negate_emod (x : WideInt) : ((negate x).U : Int) = (-x.V) % (Config.MODULUS : Int) := by
  rw [← neg_emod_emod, V_emod]; rw [Config.MODULUS_eq]; exact Machine.U_negate_emod x

theorem V_negate {x : WideInt} (h : x.V ≠ Config.MIN) : (negate x).V = -x.V := by
  rw [MIN_eq, Config.HALF_eq] at h; exact Machine.V_negate SIZE_pos h

theorem U_mag (x : WideInt) : (mag x).U = x.V.natAbs := Machine.U_mag SIZE_pos x

theorem U_add (a b : WideInt) : (add a b).U = (a.U + b.U) % Config.MODULUS := by
  rw [Config.MODULUS_eq]; exact Machine.U_add a b

theorem U_add_emod (a b : WideInt) : ((add a b).U : Int) = (a.V + b.V) % (Config.MODULUS : Int) := by
  rw [Config.MODULUS_eq]; exact Machine.U_add_emod a b

theorem U_subtract_emod (a b : WideInt) : ((subtract a b).U : Int) = (a.V - b.V) % (Config.MODULUS : Int) := by
  rw [Config.MODULUS_eq]; exact Machine.U_subtract_emod a b

theorem U_multiply (a b : WideInt) : (multiply a b).U = a.U * b.U % Config.MODULUS := by
  rw [Config.MODULUS_eq]; exact Machine.U_multiply a b

theorem U_multiply_emod (a b : WideInt) :
    ((multiply a b).U : Int) = (a.V * b.V) % (Config.MODULUS : Int) := by
  rw [Config.MODULUS_eq]; exact Machine.U_multiply_emod a b

theorem U_divide (a : WideInt) {b : WideInt} (hb : b.V ≠ 0) :
    ((divide a b).U : Int) = (a.V.tdiv b.V) % (Config.MODULUS : Int) := by
  rw [Config.MODULUS_eq]; exact Machine.U_divide SIZE_pos a hb

theorem V_divide {a b : WideInt} (hb : b.V ≠ 0) (h : ¬(a.V = Config.MIN ∧ b.V = -1)) :
    (divide a b).V = a.V.tdiv b.V := by
  rw [MIN_eq, Config.HALF_eq] at h; exact Machine.V_divide SIZE_pos hb h

theorem V_remainder (a : WideInt) {b : WideInt} (hb : b.V ≠ 0) : (remainder a b).V = a.V.tmod b.V :=
  Machine.V_remainder SIZE_pos a hb

theorem V_fromInteger (i : BitVec 32) : (fromInteger Config.SIZE i).V = i.toInt := by
  rw [Machine.V_fromInteger Config.four_le_SIZE, intValue_eq]

theorem U_parseDigits (ds : List Byte) :
    (ds.foldl accumulate WideInt.ZERO).U = digitsValue ds % Config.MODULUS := by
  rw [Config.MODULUS_eq]; exact Machine.U_parseDigits SIZE_pos ds

theorem toDecimal_eq (x : WideInt) : toDecimal x = decimalNumeral x.V := Machine.toDecimal_eq SIZE_pos x

theorem lessThan_eq (a b : WideInt) : lessThan a b = decide (a.V < b.V) := Machine.lessThan_eq SIZE_pos a b

theorem fromDecimal_digits {ds : List Byte} (h : DigitString ds) :
    fromDecimal Config.SIZE ds = some (ds.foldl accumulate WideInt.ZERO) := Machine.fromDecimal_digits h

theorem fromDecimal_minus {ds : List Byte} (h : DigitString ds) :
    fromDecimal Config.SIZE (0x2D :: ds) = some (negate (ds.foldl accumulate WideInt.ZERO)) :=
  Machine.fromDecimal_minus h

end Sys2Proof.WideInt
end

