-- ==== Sys2Proof/Tests/Slice0.lean ====
section
/-! SUPPORT. Tests of single requests, with the values of spec/95_test_vectors.md (its sections in each docstring), and the
witnesses that the hypotheses of the obligations can be met together. -/

namespace Sys2Proof.Tests

open Sys2Proof Sys2Proof.Machine

-- The kernel checks one test at a time: many at once ask for too many threads.
set_option Elab.async false

/-- A limb list in the notation of 00_scope.md section 5: the limbs written, then `fill` in all the others. -/
def limbs (low : List Byte) (fill : Byte) : WideInt := Limbs.ofFn Config.SIZE fun k => low.getD k fill

/-- `{fill*253 top}`. -/
def topped (fill top : Byte) : WideInt := Limbs.ofFn Config.SIZE fun k => if k = 253 then top else fill

/-- An OK response with a WIDE payload. -/
def wide (x : WideInt) : Option Response := some (.ok (.wide x))

/-- An OK response with a BOOL payload. -/
def bool (c : Bool) : Option Response := some (.ok (.bool c))

/-- The state a step answers, if it answers one. -/
def stepped (s : State) : Option State :=
  match step s with
  | .next t => some t
  | .fault _ => none
  | .refused _ => none

theorem step_of_stepped {s t : State} (h : stepped s = some t) : step s = .next t := by
  unfold stepped at h
  split at h
  · injection h with h; subst h; assumption
  · cases h
  · cases h

def five : WideInt := limbs [0x05] 0x00
def minusThree : WideInt := limbs [0xFD] 0xFF
def two : WideInt := limbs [0x02] 0x00
def minusOne : WideInt := limbs [] 0xFF
def minusSeven : WideInt := limbs [0xF9] 0xFF

/-! ### Well-formedness: the one check, the length of a text -/

theorem test_wellFormed_longest_text : (Instr.fromdec (List.replicate 65535 0x35)).wellFormed = true := by
  rw [Instr.wellFormed, textFits, List.length_replicate]
  decide

theorem test_wellFormed_refuses_longer_text : (Instr.fromdec (List.replicate 65536 0x35)).wellFormed = false := by
  rw [Instr.wellFormed, textFits, List.length_replicate]
  decide

/-! ### Decoding: words written out from R40 and R41 (section 2.1), and the encoder gives them back -/

/-- `0*507 30` -/
theorem test_decode_neg : decode ⟨2036, 0x30⟩ = .ok (.neg (limbs [0x03] 0x00)) ∧
    encode (.neg (limbs [0x03] 0x00)) = ⟨2036, 0x30⟩ := by decide +kernel

/-- `FFFFFFFD1` -/
theorem test_decode_fromint : decode ⟨36, 0xFFFFFFFD1⟩ = .ok (.fromint (-3)) ∧
    encode (.fromint (-3)) = ⟨36, 0xFFFFFFFD1⟩ := by decide +kernel

/-- `3332312D00042` -/
theorem test_decode_fromdec : decode ⟨52, 0x3332312D00042⟩ = .ok (.fromdec [0x2D, 0x31, 0x32, 0x33]) ∧
    encode (.fromdec [0x2D, 0x31, 0x32, 0x33]) = ⟨52, 0x3332312D00042⟩ := by decide +kernel

/-- `F*506 853` -/
theorem test_decode_todec : decode ⟨2036, (16 ^ 506 - 1) * 16 ^ 3 + 0x853⟩ = .ok (.todec (limbs [0x85] 0xFF)) ∧
    encode (.todec (limbs [0x85] 0xFF)) = ⟨2036, (16 ^ 506 - 1) * 16 ^ 3 + 0x853⟩ := by decide +kernel

/-- The word `F*507 D 0*507 5 <op>`: first operand 5, second operand -3, the operation code in the last digit. -/
def wordB (op : Nat) : Packet := ⟨4068, (16 ^ 507 - 1) * 16 ^ 510 + 0xD * 16 ^ 509 + 0x50 + op⟩

theorem test_decode_add : decode (wordB 0x4) = .ok (.add five minusThree) ∧ encode (.add five minusThree) = wordB 0x4 := by
  decide +kernel
theorem test_decode_sub : decode (wordB 0x5) = .ok (.sub five minusThree) := by decide +kernel
theorem test_decode_mul : decode (wordB 0x6) = .ok (.mul five minusThree) := by decide +kernel
theorem test_decode_div : decode (wordB 0x7) = .ok (.div five minusThree) := by decide +kernel
theorem test_decode_rem : decode (wordB 0x8) = .ok (.rem five minusThree) := by decide +kernel
theorem test_decode_eq : decode (wordB 0x9) = .ok (.eq five minusThree) := by decide +kernel
theorem test_decode_ne : decode (wordB 0xA) = .ok (.ne five minusThree) := by decide +kernel
theorem test_decode_lt : decode (wordB 0xB) = .ok (.lt five minusThree) := by decide +kernel
theorem test_decode_le : decode (wordB 0xC) = .ok (.le five minusThree) := by decide +kernel
theorem test_decode_gt : decode (wordB 0xD) = .ok (.gt five minusThree) := by decide +kernel
theorem test_decode_ge : decode (wordB 0xE) = .ok (.ge five minusThree) := by decide +kernel

/-- `F`, alone and as the low digit of a longer packet -/
theorem test_decode_reservedF : decode ⟨4, 0xF⟩ = .ok .reservedF ∧ decode ⟨36, 0x12345678F⟩ = .ok .reservedF := by
  decide +kernel

/-- Each way in which a packet can lack bits. -/
theorem test_decode_incomplete : decode ⟨3, 0x7⟩ = .error .noOperationCode ∧ decode ⟨19, 0x2⟩ = .error .noTextLength ∧
    decode ⟨27, 0x12⟩ = .error .operandsMissing ∧ decode ⟨2035, 0x30⟩ = .error .operandsMissing := by decide +kernel

/-! ### Requests, with the responses of section 2 -/

/-- Section 2.2: `NEG 3`, `NEG 256`, `NEG 0`. -/
theorem test_neg_carries : answer (.neg (limbs [0x03] 0x00)) = wide (limbs [0xFD] 0xFF) ∧
    answer (.neg (limbs [0x00, 0x01] 0x00)) = wide (limbs [0x00] 0xFF) ∧
    answer (.neg (limbs [] 0x00)) = wide (limbs [] 0x00) := by decide +kernel

/-- Section 2.2: `NEG MIN` wraps to itself; `NEG MAX`. -/
theorem test_neg_ends : answer (.neg (topped 0x00 0x80)) = wide (topped 0x00 0x80) ∧
    answer (.neg (topped 0xFF 0x7F)) = wide (Limbs.ofFn Config.SIZE fun k => if k = 253 then 0x80 else if k = 0 then 0x01 else 0x00) := by decide +kernel

/-- Section 2.3: `#-3` and `#305419896`. -/
theorem test_fromint_extends : answer (.fromint (-3)) = wide minusThree ∧
    answer (.fromint 305419896) = wide (limbs [0x78, 0x56, 0x34, 0x12] 0x00) := by decide +kernel

/-- Section 2.3: `#-2147483648` and `#2147483647`. -/
theorem test_fromint_ends : answer (.fromint 0x80000000) = wide (limbs [0x00, 0x00, 0x00, 0x80] 0xFF) ∧
    answer (.fromint 0x7FFFFFFF) = wide (limbs [0xFF, 0xFF, 0xFF, 0x7F] 0x00) := by decide +kernel

/-- Section 2.4: `"-123"`, through the closed form of R67 (the kernel takes long over the multiplications by ten). -/
theorem test_fromdec_negative : answer (.fromdec [0x2D, 0x31, 0x32, 0x33]) = wide (limbs [0x85] 0xFF) := by
  have h : DigitString [0x31, 0x32, 0x33] := ⟨by decide, by decide⟩
  suffices e : negate ([0x31, 0x32, 0x33].foldl accumulate WideInt.ZERO) = limbs [0x85] 0xFF by
    rw [answer, exec, execFromdec, WideInt.fromDecimal_minus h, e]; rfl
  apply Limbs.U_injective
  rw [WideInt.U_negate, WideInt.U_parseDigits]
  decide +kernel

/-- Section 2.4: texts that are no numerals, `""`, `"-"`, `"+5"`, `"5-"`, `"--5"`, `"12:"`, `"12/"`. -/
theorem test_fromdec_malformed : ∀ t ∈ [[], [0x2D], [0x2B, 0x35], [0x35, 0x2D], [0x2D, 0x2D, 0x35], [0x31, 0x32, 0x3A],
    [0x31, 0x32, 0x2F]], answer (.fromdec t) = some (.error .invalidFormat) := by decide +kernel

/-- Vector S4: `TODEC -123`. -/
theorem test_todec_negative : answer (.todec (limbs [0x85] 0xFF)) = some (.ok (.text [0x2D, 0x31, 0x32, 0x33])) := by
  decide +kernel

/-- Section 2.5: `TODEC 0`, and `TODEC 10`, where a leading zero could slip in. -/
theorem test_todec_zero : answer (.todec (limbs [] 0x00)) = some (.ok (.text [0x30])) ∧
    answer (.todec (limbs [0x0A] 0x00)) = some (.ok (.text [0x31, 0x30])) := by decide +kernel

/-- Vector S1: `ADD 5, -3`, and the wraparound of P7. -/
theorem test_add_wraps : answer (.add five minusThree) = wide two ∧
    answer (.add (topped 0xFF 0x7F) (limbs [0x01] 0x00)) = wide (topped 0x00 0x80) := by decide +kernel

/-- `SUB 5, -3` is 8; program 5, line 5: `SUB MIN, 1`. -/
theorem test_sub_wraps : answer (.sub five minusThree) = wide (limbs [0x08] 0x00) ∧
    answer (.sub (topped 0x00 0x80) (limbs [0x01] 0x00)) = wide (topped 0xFF 0x7F) := by decide +kernel

/-- Vector S2: `MUL 7, -3`, by the closed form of R94 (the loops take the kernel long). -/
theorem test_mul_signed : answer (.mul (limbs [0x07] 0x00) minusThree) = wide (limbs [0xEB] 0xFF) := by
  suffices e : multiply (limbs [0x07] 0x00) minusThree = limbs [0xEB] 0xFF by rw [answer, exec, execMul, e]; rfl
  apply Limbs.U_injective
  rw [WideInt.U_multiply]
  decide +kernel

/-- The loops themselves at three limbs: `0x00FFFF * 0x0100FF`, modulo `2^24`. -/
theorem test_mul_loops : multiply (Limbs.wide 3 0x00FFFF) (Limbs.wide 3 0x0100FF) = Limbs.wide 3 0xFDFF01 := by
  decide +kernel

/-- Vector S3: `DIV -7, 2` truncates toward zero; `DIV 5, 0`. -/
theorem test_div_truncates : answer (.div minusSeven two) = wide minusThree ∧
    answer (.div five (limbs [] 0x00)) = some (.error .divisionByZero) := by decide +kernel

/-- Program 5, line 9: `DIV MIN, -1` wraps to `MIN`. -/
theorem test_div_min : answer (.div (topped 0x00 0x80) minusOne) = wide (topped 0x00 0x80) := by decide +kernel

/-- Vector S3: `REM -7, 2` has the sign of the dividend; `REM 0, 0`. -/
theorem test_rem_sign : answer (.rem minusSeven two) = wide minusOne ∧
    answer (.rem (limbs [] 0x00) (limbs [] 0x00)) = some (.error .divisionByZero) := by decide +kernel

/-- `REM 7, -2` is 1: the sign of the divisor plays no part. -/
theorem test_rem_positive : answer (.rem (limbs [0x07] 0x00) (limbs [0xFE] 0xFF)) = wide (limbs [0x01] 0x00) := by
  decide +kernel

/-- Section 2.8, the row `255 256` and the row `MIN MIN`. -/
theorem test_eq : answer (.eq (limbs [0xFF] 0x00) (limbs [0x00, 0x01] 0x00)) = bool false ∧
    answer (.eq (topped 0x00 0x80) (topped 0x00 0x80)) = bool true := by decide +kernel

theorem test_ne : answer (.ne (limbs [0xFF] 0x00) (limbs [0x00, 0x01] 0x00)) = bool true ∧
    answer (.ne (topped 0x00 0x80) (topped 0x00 0x80)) = bool false := by decide +kernel

/-- Section 2.8, the rows `-129 -128`, `MAX MIN`, `0 0`. -/
theorem test_lt : answer (.lt (limbs [0x7F] 0xFF) (limbs [0x80] 0xFF)) = bool true ∧
    answer (.lt (topped 0xFF 0x7F) (topped 0x00 0x80)) = bool false ∧
    answer (.lt (limbs [] 0x00) (limbs [] 0x00)) = bool false := by decide +kernel

theorem test_le : answer (.le (limbs [0x7F] 0xFF) (limbs [0x80] 0xFF)) = bool true ∧
    answer (.le (topped 0xFF 0x7F) (topped 0x00 0x80)) = bool false ∧
    answer (.le (limbs [] 0x00) (limbs [] 0x00)) = bool true := by decide +kernel

theorem test_gt : answer (.gt (limbs [0x7F] 0xFF) (limbs [0x80] 0xFF)) = bool false ∧
    answer (.gt (topped 0xFF 0x7F) (topped 0x00 0x80)) = bool true ∧
    answer (.gt (limbs [] 0x00) (limbs [] 0x00)) = bool false := by decide +kernel

theorem test_ge : answer (.ge (limbs [0x7F] 0xFF) (limbs [0x80] 0xFF)) = bool false ∧
    answer (.ge (topped 0xFF 0x7F) (topped 0x00 0x80)) = bool true ∧
    answer (.ge (limbs [] 0x00) (limbs [] 0x00)) = bool true := by decide +kernel

/-- Section 2.9. -/
theorem test_reservedF : answer .reservedF = some (.error .illegalOp) := by decide +kernel

/-! ### Packed responses (section 2.1) and steps -/

/-- `3 F*507 4`, `0CCC8C4B40010`, `4`, and the errors `1`, `2`, `3`. -/
theorem test_packed_responses : encodeResponse (.ok (.wide minusThree)) = ⟨2034, 3 * 16 ^ 508 + (16 ^ 507 - 1) * 16 + 4⟩ ∧
    encodeResponse (.ok (.text [0x2D, 0x31, 0x32, 0x33])) = ⟨50, 0x0CCC8C4B40010⟩ ∧
    encodeResponse (.ok (.bool true)) = ⟨3, 0x4⟩ ∧ encodeResponse (.error .divisionByZero) = ⟨2, 0x1⟩ ∧
    encodeResponse (.error .invalidFormat) = ⟨2, 0x2⟩ ∧ encodeResponse (.error .illegalOp) = ⟨2, 0x3⟩ := by
  decide +kernel

/-- The host's reading of the same words, each by the operation of its request. -/
theorem test_read_responses : readResponse .todec ⟨50, 0x0CCC8C4B40010⟩ = some (.ok (.text [0x2D, 0x31, 0x32, 0x33])) ∧
    readResponse .lt ⟨3, 0x4⟩ = bool true ∧ readResponse .div ⟨2, 0x1⟩ = some (.error .divisionByZero) := by decide +kernel

/-- The word of `FROMINT #-3` runs as the first request after reset, and again with rubbish above its 36 bits. -/
theorem test_step_runs_word : stepped (State.reset.withFetchWord 36 0xFFFFFFFD1) =
      some { resp := wide minusThree, script := [] } ∧
    stepped (State.reset.present ⟨44, 0x5AFFFFFFFD1⟩) = some { resp := wide minusThree, script := [] } := by
  decide +kernel

/-- Program 4: the error of line 3 stays until the reset, which empties `RESP`. -/
theorem test_reset_step : stepped { resp := some (.error .divisionByZero), script := [.reset] } =
    some { resp := none, script := [] } := by decide +kernel

theorem test_incomplete_request_refused : step { resp := none, script := [.request ⟨3, 0x7⟩] } =
    .refused .incompleteRequest := rfl

/-! ### The host's scripts (30_encoding.md rules R51 to R54) -/

/-- `ADD $1, $2` after `FROMINT #5` and `FROMINT #-3` (program 1, line 3); `$1` of an error is refused (program 4). -/
theorem test_assemble : (Line.binary .add (.result 1) (.result 2)).assemble [.ok (.wide five), .ok (.wide minusThree)] =
      .ok (.add five minusThree) ∧
    (Line.unary .neg (.result 1)).assemble [.error .divisionByZero] = .error .noWideResult ∧
    (Line.integer (-3)).assemble [] = .ok (.fromint (-3)) ∧ (Line.integer 2147483648).assemble [] = .error .outOfRange ∧
    (Line.unary .add .min).assemble [] = .error .wrongFormat := by decide +kernel

/-- The texts `SUB MIN, $2`, `FROMDEC "5\x0A"` and `FROMINT #-21`. -/
theorem test_line_text : (Line.binary .sub .min (.result 2)).chars = "SUB MIN, $2".toList ∧
    (Line.text [0x35, 0x0A]).chars = "FROMDEC \"5\\x0A\"".toList ∧
    (Line.integer (-21)).chars = "FROMINT #-21".toList := by decide +kernel

/-! ### Witnesses: the hypotheses of the obligations can be met together -/

/-- The request `TODEC 0`, presented after reset, and the state it leads to. -/
def zeroPresented : State := State.reset.present ⟨2036, 0x3⟩
def zeroAnswered : State := { resp := some (.ok (.text [0x30])), script := [] }

theorem step_zeroPresented : step zeroPresented = .next zeroAnswered := step_of_stepped (by decide +kernel)

/-- The value of a limb list, read off its unsigned reading. -/
theorem V_limbs {x : WideInt} {v : Int} (h : Config.MIN ≤ v ∧ v ≤ Config.MAX ∧ (x.U : Int) = v % (Config.MODULUS : Int)) :
    x.V = v := WideInt.V_eq_of_emod x h.1 h.2.1 h.2.2

theorem V_five : five.V = 5 := V_limbs (by decide +kernel)
theorem V_two : two.V = 2 := V_limbs (by decide +kernel)
theorem V_minusThree : minusThree.V = -3 := V_limbs (by decide +kernel)
theorem V_minusOne : minusOne.V = -1 := V_limbs (by decide +kernel)
theorem V_minusSeven : minusSeven.V = -7 := V_limbs (by decide +kernel)
theorem V_seven : (limbs [0x07] 0x00).V = 7 := V_limbs (by decide +kernel)
theorem V_minusTwo : (limbs [0xFE] 0xFF).V = -2 := V_limbs (by decide +kernel)
theorem isZero_zero : isZero WideInt.ZERO = true := by decide +kernel
theorem isZero_two : isZero two = false := by decide +kernel

/-- The digits of `2^2031`: the text of `MIN` without its sign (R7). -/
def halfDigits : List Byte := (decimalNumeral Config.MIN).tail

theorem digitString_half : DigitString halfDigits :=
  ⟨by unfold halfDigits Config.MIN Config.HALF Config.W; decide +kernel,
    (all_isDigit_iff _).1 (by unfold halfDigits Config.MIN Config.HALF Config.W; decide +kernel)⟩

theorem value_half : digitsValue halfDigits = Config.HALF := by
  unfold halfDigits Config.MIN Config.HALF Config.W; decide +kernel

theorem digitString_zero : DigitString [0x30] := ⟨by decide, by decide⟩

/-- The numbers at the ends of both readings. -/
theorem witness_EveryLimbListIsOneValue : Config.MODULUS - 1 < Config.MODULUS ∧ Config.MIN ≤ Config.MIN ∧
    Config.MIN ≤ Config.MAX ∧ Config.MAX ≤ Config.MAX := by
  have := MODULUS_eq_HALF
  have := small_le_HALF
  have := WideInt.MIN_eq
  have := WideInt.MAX_eq
  omega

/-- A value that is not `MIN`, and the two fixed points. -/
theorem witness_NegComplementsModuloWidth : five.V ≠ Config.MIN ∧ WideInt.MIN.V = Config.MIN ∧ WideInt.ZERO.V = 0 := by
  refine ⟨?_, WideInt.V_MIN, WideInt.V_ZERO⟩
  rw [V_five]
  decide +kernel

theorem witness_MagnitudeIsAbsoluteValue : (topped 0xFF 0x7F).sign = false ∧ WideInt.MIN.sign = true ∧
    minusOne.sign = true ∧ WideInt.ZERO.sign = false := by decide +kernel

/-- The limbs at the ends of both ranges, and integers of both signs. -/
theorem witness_FromintSignExtends : (0 : Nat) < 4 ∧ (3 : Nat) < 4 ∧ 4 ≤ 4 ∧ 4 < Config.SIZE ∧ 4 ≤ 253 ∧ 253 < Config.SIZE ∧
    (0x80000000 : BitVec 32).toInt < 0 ∧ ¬(0x7FFFFFFF : BitVec 32).toInt < 0 := by decide +kernel

/-- `"0"` for the clauses in range, and the digits of `2^2031`, in range only with the sign. -/
theorem witness_FromdecGivesNumeralModuloWidth : DigitString [0x30] ∧ ((digitsValue [0x30] : Nat) : Int) ≤ Config.MAX ∧
    Config.MIN ≤ -((digitsValue [0x30] : Nat) : Int) ∧ digitsValue [0x30] = 0 ∧ DigitString halfDigits ∧
    digitsValue halfDigits = Config.HALF ∧ ¬((digitsValue halfDigits : Nat) : Int) ≤ Config.MAX ∧
    Config.MIN ≤ -((digitsValue halfDigits : Nat) : Int) := by
  refine ⟨digitString_zero, by decide +kernel, by decide +kernel, rfl, digitString_half, value_half, ?_, ?_⟩
  · rw [value_half, WideInt.MAX_eq]; omega
  · rw [value_half, WideInt.MIN_eq]

theorem witness_FromdecAcceptsExactlyNumerals : WellFormedNumeral [0x2D, 0x30] ∧ WellFormedNumeral [0x30] ∧
    DigitString [0x30] := ⟨⟨_, digitString_zero, .inr rfl⟩, ⟨_, digitString_zero, .inl rfl⟩, digitString_zero⟩

/-- Case (c) at position 0 and at a later position, and a `'-'` that is not at position 0. -/
theorem witness_FromdecRejectsExactlyMalformed : ([0x3A] : List Byte)[0]? = some 0x3A ∧
    ¬(0x30 ≤ (0x3A : Byte).toNat ∧ (0x3A : Byte).toNat ≤ 0x39) ∧ ¬((0 : Nat) = 0 ∧ (0x3A : Byte) = 0x2D) ∧
    ([0x35, 0x2D] : List Byte)[1]? = some 0x2D ∧ ¬((1 : Nat) = 0 ∧ (0x2D : Byte) = 0x2D) := by decide

theorem witness_DecimalTextRoundTrip : DigitString [0x30] ∧ ((digitsValue [0x30] : Nat) : Int) ≤ Config.MAX ∧
    DigitString halfDigits ∧ Config.MIN ≤ -((digitsValue halfDigits : Nat) : Int) := by
  refine ⟨digitString_zero, by decide +kernel, digitString_half, ?_⟩
  rw [value_half, WideInt.MIN_eq]

/-- After reset and `TODEC 0` a text is held. -/
theorem witness_LongestTextIsThatOfMin : Reachable zeroAnswered ∧ zeroAnswered.resp = some (.ok (.text [0x30])) :=
  ⟨.step (.start [.request ⟨2036, 0x3⟩]) step_zeroPresented, rfl⟩

/-- A sum in range, one just above it and one just below it. -/
theorem witness_AddSubWrapModuloWidth : Config.MIN ≤ five.V + minusThree.V ∧ five.V + minusThree.V ≤ Config.MAX ∧
    Config.MAX < WideInt.MAX.V + WideInt.ONE.V ∧ WideInt.MIN.V + minusOne.V < Config.MIN ∧
    Config.MIN ≤ WideInt.MIN.V + WideInt.ZERO.V ∧ WideInt.MAX.V + WideInt.ZERO.V ≤ Config.MAX := by
  rw [V_five, V_minusThree, V_minusOne, WideInt.V_MAX, WideInt.V_MIN, WideInt.V_ONE, WideInt.V_ZERO]
  decide +kernel

/-- A product in range, and the ends of the range as products. -/
theorem witness_MulKeepsLowLimbs : Config.MIN ≤ five.V * minusThree.V ∧ five.V * minusThree.V ≤ Config.MAX ∧
    Config.MIN ≤ WideInt.MIN.V * WideInt.ONE.V ∧ WideInt.MAX.V * WideInt.ONE.V ≤ Config.MAX := by
  rw [V_five, V_minusThree, WideInt.V_MAX, WideInt.V_MIN, WideInt.V_ONE]
  decide +kernel

/-- 7 = 3*2 + 1, and the least divisor. -/
theorem witness_DividerCoreIsEuclidean : two.U ≠ 0 ∧ (limbs [0x07] 0x00).U = (limbs [0x03] 0x00).U * two.U + WideInt.ONE.U ∧
    WideInt.ONE.U < two.U ∧ WideInt.ONE.U ≠ 0 ∧ WideInt.ZERO.U < WideInt.ONE.U := by decide +kernel

/-- The four rows of the sign table, the wrapped case and the zero divisor. -/
theorem witness_DivRemTruncate : (0 ≤ five.V ∧ 0 < two.V) ∧ (0 ≤ five.V ∧ minusThree.V < 0) ∧
    (minusSeven.V < 0 ∧ 0 < two.V) ∧
    (minusSeven.V < 0 ∧ minusThree.V < 0 ∧ ¬(minusSeven.V = Config.MIN ∧ minusThree.V = -1)) ∧ two.V ≠ 0 ∧
    minusThree.V ≠ 0 ∧ (WideInt.MIN.V = Config.MIN ∧ minusOne.V = -1 ∧ minusOne.V ≠ 0) ∧ WideInt.ZERO.V = 0 := by
  rw [V_five, V_two, V_minusThree, V_minusSeven, V_minusOne, WideInt.V_MIN, WideInt.V_ZERO]
  decide +kernel

theorem witness_MinimumValueDivision : WideInt.MAX ≠ WideInt.MIN ∧ WideInt.ZERO ≠ WideInt.MIN := by decide +kernel

theorem witness_DivisionIdentity : isZero two = false ∧ isZero minusOne = false := by decide +kernel

/-- A chain for transitivity and operands whose sums stay in range, the greatest and the least reached. -/
theorem witness_OrderIsTotal : lessThan minusOne WideInt.ZERO = true ∧ lessThan WideInt.ZERO WideInt.ONE = true ∧
    (Config.MIN ≤ WideInt.MIN.V + WideInt.ZERO.V ∧ WideInt.MIN.V + WideInt.ZERO.V ≤ Config.MAX ∧
      Config.MIN ≤ WideInt.MAX.V + WideInt.ZERO.V ∧ WideInt.MAX.V + WideInt.ZERO.V ≤ Config.MAX ∧
      lessThan WideInt.MIN WideInt.MAX = true) := by
  rw [WideInt.V_MAX, WideInt.V_MIN, WideInt.V_ZERO]
  decide +kernel

theorem witness_SameOperandTwice : two ≠ WideInt.ZERO ∧ WideInt.ZERO = WideInt.ZERO := by decide +kernel

/-- The reserved code alone and below bits that are never read. -/
theorem witness_ReservedCodeIsIllegalOp : (4 ≤ (⟨4, 0xF⟩ : Packet).length ∧ (⟨4, 0xF⟩ : Packet).field 0 4 = 0xF) ∧
    (4 ≤ (⟨36, 0x12345678F⟩ : Packet).length ∧ (⟨36, 0x12345678F⟩ : Packet).field 0 4 = 0xF) := by decide +kernel

/-- A WIDE, a BOOL, a TEXT and an error response. -/
theorem witness_ResponsePortRoundTrip (s : State) :
    (∃ r, exec (.neg WideInt.ZERO) s = .next (s.respond (.wide r)) ∧
      (s.respond (.wide r)).resp = some (.ok (.wide r))) ∧
    (∃ c, exec (.eq five two) s = .next (s.respond (.bool c)) ∧ (s.respond (.bool c)).resp = some (.ok (.bool c))) ∧
    (∃ t, exec (.todec five) s = .next (s.respond (.text t)) ∧ (s.respond (.text t)).resp = some (.ok (.text t))) ∧
    (exec .reservedF s = .next (s.raise .illegalOp) ∧ (s.raise .illegalOp).resp = some (.error .illegalOp)) :=
  ⟨⟨_, rfl, rfl⟩, ⟨_, rfl, rfl⟩, ⟨_, rfl, rfl⟩, rfl, rfl⟩

/-- The first and the last limb, and the first and the last byte of a text. -/
theorem witness_PackedFieldPositions : 0 < Config.SIZE ∧ 253 < Config.SIZE ∧ textFits [] = true ∧
    textFits [0x2D, 0x35] = true ∧ ([0x2D, 0x35] : List Byte)[0]? = some 0x2D ∧
    ([0x2D, 0x35] : List Byte)[1]? = some 0x35 := by decide +kernel

theorem witness_DecodeInvertsEncode : (Instr.add five two).wellFormed = true ∧ (Instr.fromdec []).wellFormed = true ∧
    (Instr.fromdec (List.replicate 65535 0x35)).wellFormed = true := ⟨rfl, rfl, test_wellFormed_longest_text⟩

theorem witness_ExtraBitsAreNeverRead : (Instr.neg five).wellFormed = true ∧ Instr.reservedF.wellFormed = true := ⟨rfl, rfl⟩

/-- The shortest packets of the formats X and T, and one with a bit more than its format takes. -/
theorem witness_EveryCompletePacketIsARequest : ∀ p ∈ [(⟨4, 0xF⟩ : Packet), ⟨20, 0x2⟩, ⟨5, 0xF⟩, ⟨36, 0x1⟩],
    4 ≤ p.length ∧ (p.op.format = .T → 20 ≤ p.length) ∧ p.op.format.bits p.slen ≤ p.length ∧
      p.value < 2 ^ p.length := by decide +kernel

theorem witness_StepRunsThePresentedRequest : (State.reset.present ⟨36, 0xFFFFFFFD1⟩).script = .request ⟨36, 0xFFFFFFFD1⟩ :: [] ∧
    decode ⟨36, 0xFFFFFFFD1⟩ = .ok (.fromint (-3)) := ⟨rfl, test_decode_fromint.1⟩

theorem witness_ResetEmptiesResp : (State.mk (some (.error .illegalOp)) [.reset]).script = .reset :: [] := rfl

theorem witness_IdleHostChangesNothing : State.reset.script = [] := rfl

/-- A state that does not stop, one that does, and packets one bit short of each of the three lengths. -/
theorem witness_OnlyIncompleteRequestsStop : (∃ t, step zeroPresented = .next t) ∧
    (State.reset.present ⟨3, 0x7⟩).script = .request ⟨3, 0x7⟩ :: [] ∧
    (∀ p ∈ [(⟨3, 0x7⟩ : Packet), ⟨19, 0x2⟩, ⟨27, 0x12⟩], p.missing ≠ none) ∧
    (∀ p ∈ [(⟨4, 0xF⟩ : Packet), ⟨20, 0x2⟩, ⟨28, 0x12⟩], p.missing = none) :=
  ⟨⟨_, step_zeroPresented⟩, rfl, by decide +kernel, by decide +kernel⟩

theorem witness_CompleteHostNeverStops : zeroPresented.hostComplete ∧ State.reset.hostComplete := by
  constructor
  · have : ∀ x ∈ zeroPresented.script, completeInput x = true := by decide +kernel
    exact this
  · intro x hx; cases hx

theorem witness_HistoryDoesNotMatter : ([.reset] : List HostInput) ≠ [] := by simp

theorem witness_RepeatingARequestChangesNothing : (Instr.div five WideInt.ZERO).wellFormed = true := rfl

/-- A reset and then a request. -/
theorem witness_RunFollowsTheHost : (State.mk none [.reset, .request (encode (.neg five))]).hostComplete ∧
    (Instr.neg five).wellFormed = true ∧ (State.mk none [.reset, .request (encode (.neg five))]).script =
      [.reset] ++ [.request (encode (.neg five))] := by
  refine ⟨?_, rfl, rfl⟩
  have : ∀ x ∈ (State.mk none [.reset, .request (encode (.neg five))]).script, completeInput x = true := by
    decide +kernel
  exact this

/-- A state without a response and, after its step, one that holds a text. -/
theorem witness_StepKeepsLegalResponse : zeroPresented.Inv ∧ step zeroPresented = .next zeroAnswered := by
  refine ⟨?_, step_zeroPresented⟩
  intro r hr
  simp [zeroPresented] at hr

theorem witness_UnitsShareNothing : [zeroPresented, State.reset][0]? = some zeroPresented ∧
    step zeroPresented = .next zeroAnswered ∧
    stepUnit [zeroPresented, State.reset] 0 = some [zeroAnswered, State.reset] := by
  refine ⟨rfl, step_zeroPresented, ?_⟩
  rw [stepUnit, List.getElem?_cons_zero]
  simp only [step_zeroPresented, List.set_cons_zero]

/-- The first and the last limb, the empty and the longest text, and the first and the last byte of a text. -/
theorem witness_PackedResponsePositions : 0 < Config.SIZE ∧ 253 < Config.SIZE ∧ textFits [] = true ∧
    textFits (List.replicate 65535 0x35) = true ∧ textFits [0x2D, 0x35] = true ∧
    ([0x2D, 0x35] : List Byte)[0]? = some 0x2D ∧ ([0x2D, 0x35] : List Byte)[1]? = some 0x35 :=
  ⟨by decide, by decide, by decide, test_wellFormed_longest_text, by decide, rfl, rfl⟩

/-- Numerals at both ends of the range and just outside it, and a kept response. -/
theorem witness_WideOperandValues : (Config.MIN ≤ Config.MIN ∧ Config.MIN ≤ Config.MAX) ∧
    Config.MIN - 1 < Config.MIN ∧ Config.MAX < Config.MAX + 1 ∧ 1 ≤ 1 ∧
    ([.ok (.wide five)] : List Response)[1 - 1]? = some (.ok (.wide five)) :=
  ⟨by decide +kernel, by omega, by omega, le_rfl, rfl⟩

theorem witness_ScriptIssuesItsLines : (Line.binary .add (.result 1) (.result 1)).assemble [.ok (.wide five)] =
    .ok (.add five five) := by decide +kernel

end Sys2Proof.Tests
end

/-! The WideInt value: the unsigned reading as a weighted sum of limbs, the sign bit, and the correspondence of limb
lists and numbers (10_state.md rules R11, R13, R14). -/

namespace Sys2Proof

theorem limbsToNat_eq_sum (x : List Byte) :
    limbsToNat x = ∑ i ∈ Finset.range x.length, (x.getD i 0).toNat * 256 ^ i := by
  induction x with
  | nil => rfl
  | cons b bs ih =>
    rw [limbsToNat, ih, List.length_cons, Finset.sum_range_succ', Finset.mul_sum, Nat.add_comm]
    simp only [List.getD_cons_succ, List.getD_cons_zero, pow_zero, Nat.mul_one, pow_succ', Nat.mul_left_comm]

namespace Limbs

variable {n : Nat}

theorem U_eq_sum (x : Limbs n) : x.U = ∑ i ∈ Finset.range n, (x.l i).toNat * 256 ^ i := by
  have h := limbsToNat_eq_sum x.list
  rwa [x.length_eq] at h

theorem eq_iff_l {x y : Limbs n} : x = y ↔ ∀ i < n, x.l i = y.l i :=
  ⟨fun h _ _ => h ▸ rfl, ext_l⟩

@[simp] theorem l_zero (i : Nat) : (zero n).l i = 0 := by
  apply BitVec.eq_of_toNat_eq
  rw [l_toNat, U_zero, Nat.zero_div]
  rfl

/-- The top bit of a limb is the limb divided by 128. -/
theorem getLsbD_seven_iff : ∀ b : Byte, b.getLsbD 7 = true ↔ b.toNat / 128 = 1 := by decide

end Limbs

/-- Settles O1: the readings of the limb list, by induction on the list, and the bound of `U`. -/
theorem unsignedReadingIsLimbSum : Obligations.UnsignedReadingIsLimbSum := fun x =>
  ⟨x.U_eq_sum, WideInt.U_lt x⟩

/-- Settles O2: the sign bit is by definition bit 7 of the top limb, and `WideInt.sign_iff` ties it to the value. -/
theorem signBitTellsNegative : Obligations.SignBitTellsNegative := by
  intro x
  have hneg : x.sign = true ↔ x.V < 0 := WideInt.sign_iff x
  have hnonneg : x.sign = false ↔ 0 ≤ x.V := by rw [← Bool.not_eq_true, hneg, not_lt]
  exact ⟨Limbs.getLsbD_seven_iff _, rfl, hneg, hnonneg⟩

/-- Settles O3: `U` and `V` are injective, `wide` and `ofInt` reach every number in their ranges, and the value 0 is
that of `zero` alone. -/
theorem everyLimbListIsOneValue : Obligations.EveryLimbListIsOneValue := by
  refine ⟨fun x y => ⟨?_, Limbs.U_inj⟩, WideInt.V_range, fun u hu => ⟨_, WideInt.U_wide hu⟩,
    fun v hlo hhi => ⟨_, WideInt.V_ofInt hlo hhi⟩, fun x => ?_⟩
  · rw [Limbs.V_inj, Limbs.eq_iff_l]
  · simp only [Limbs.V_eq_zero, Limbs.eq_iff_l, Limbs.l_zero]

end Sys2Proof

/-! The packed request read back (30_encoding.md rules R40, R41, R50): the fields of each format's encoding, when a packet
is complete, and the decoder as the inverse of the encoder. -/

namespace Sys2Proof

/-- A packet lacks nothing exactly when it is as long as the format of its operation (R50). -/
theorem missing_eq_none_iff (p : Packet) : p.missing = none ↔ p.op.format.bits p.slen ≤ p.length := by
  have hbits : 4 ≤ p.op.format.bits p.slen := by
    cases p.op.format <;> simp only [Format.bits] <;> omega
  have htext : p.op.format = .T → 20 ≤ p.op.format.bits p.slen := by
    intro h
    rw [h, Format.bits]
    omega
  rw [Packet.missing]
  split_ifs with hcode hlen hoperands
  · exact iff_of_false nofun (by omega)
  · have := htext hlen.1
    exact iff_of_false nofun (by omega)
  · exact iff_of_false nofun (by omega)
  · exact iff_of_true rfl (by omega)

/-! ### The fields of an encoding -/

@[simp] theorem a_encodeU (o : Op) (a : WideInt) : (encodeU o a).a = a :=
  wideAt_of_value (high := 0) (by rw [encodeU, Nat.mul_zero, Nat.add_zero]) o.code_lt

@[simp] theorem a_encodeB (o : Op) (a b : WideInt) : (encodeB o a b).a = a :=
  wideAt_of_value (high := b.U) rfl o.code_lt

@[simp] theorem b_encodeB (o : Op) (a b : WideInt) : (encodeB o a b).b = b := by
  have hpow : 2 ^ (Config.W + 4) = 2 ^ 4 * Config.MODULUS := by
    rw [pow_add, ← Config.MODULUS_eq_pow_W, Nat.mul_comm]
  have hcode := o.code_lt
  have ha := WideInt.U_lt a
  refine wideAt_of_value (lowPart := o.code + 2 ^ 4 * a.U) (high := 0) ?_ ?_
  · rw [encodeB, hpow]
    ring
  · rw [hpow]
    omega

@[simp] theorem i_encodeI (o : Op) (i : BitVec 32) : (encodeI o i).i = i := by
  have hfield : (encodeI o i).field 4 32 = i.toNat :=
    field_of_value (high := 0) (by rw [encodeI, Nat.mul_zero, Nat.add_zero]) o.code_lt i.isLt
  rw [Packet.i, hfield, BitVec.ofNat_toNat, BitVec.setWidth_eq]

theorem length_lt_of_textFits {s : List Byte} (h : textFits s = true) : s.length < 2 ^ 16 := of_decide_eq_true h

theorem slen_encodeT (o : Op) {s : List Byte} (h : textFits s = true) : (encodeT o s).slen = s.length :=
  field_of_value rfl o.code_lt (length_lt_of_textFits h)

theorem s_encodeT (o : Op) {s : List Byte} (h : textFits s = true) : (encodeT o s).s = s := by
  have hcode := o.code_lt
  have hlen := length_lt_of_textFits h
  rw [Packet.s, slen_encodeT o h]
  refine text_of_value (lowPart := o.code + 2 ^ 4 * s.length) ?_ (by omega)
  rw [encodeT]
  ring

/-! ### The whole request -/

/-- The operation field of every encoded request is its operation (R40). -/
theorem op_encode (i : Instr) : (encode i).op = i.op := by
  cases i with
  | neg a => exact Laws.OpcodeField.neg a
  | fromint i => exact Laws.OpcodeField.fromint i
  | fromdec s => exact Laws.OpcodeField.fromdec s
  | todec a => exact Laws.OpcodeField.todec a
  | add a b => exact Laws.OpcodeField.add a b
  | sub a b => exact Laws.OpcodeField.sub a b
  | mul a b => exact Laws.OpcodeField.mul a b
  | div a b => exact Laws.OpcodeField.div a b
  | rem a b => exact Laws.OpcodeField.rem a b
  | eq a b => exact Laws.OpcodeField.eq a b
  | ne a b => exact Laws.OpcodeField.ne a b
  | lt a b => exact Laws.OpcodeField.lt a b
  | le a b => exact Laws.OpcodeField.le a b
  | gt a b => exact Laws.OpcodeField.gt a b
  | ge a b => exact Laws.OpcodeField.ge a b
  | reservedF => exact Laws.OpcodeField.reservedF

/-- An encoding has exactly the length of its format, which for a text follows from `slen` (R40, R50). -/
theorem length_encode {i : Instr} (h : i.wellFormed = true) :
    (encode i).length = i.op.format.bits (encode i).slen := by
  cases i with
  | fromdec s => rw [encode, slen_encodeT _ h]; rfl
  | _ => rfl

/-- Every operand of a well-formed request stands in the field that its operation reads (R40, R41). -/
theorem request_encode {i : Instr} (h : i.wellFormed = true) : (encode i).request i.op = i := by
  cases i with
  | fromdec s => exact congrArg Instr.fromdec (s_encodeT _ h)
  | _ => simp only [encode, Instr.op, Packet.request, a_encodeU, a_encodeB, b_encodeB, i_encodeI]

/-- The encoding of a well-formed request is complete (R122). -/
theorem missing_encode {i : Instr} (h : i.wellFormed = true) : (encode i).missing = none := by
  rw [missing_eq_none_iff, op_encode]
  exact (length_encode h).ge

/-- The decoder inverts the encoder (R40, R41). -/
theorem decode_encode {i : Instr} (h : i.wellFormed = true) : decode (encode i) = .ok i := by
  rw [decode_of_complete (missing_encode h), op_encode, request_encode h]

end Sys2Proof

/-! Steps and runs (10_state.md rules R17, R22; 20_memory.md rule R35): `exec` through `answer`, the step that a complete
input takes, the run along the host's inputs, and the invariant of `RESP`. -/

namespace Sys2Proof.Machine

/-! ### What a request does, through `answer` -/

/-- `exec` replaces `RESP` by the request's answer, which the state does not influence (R17). -/
theorem exec_eq_answer (i : Instr) (s : State) : exec i s = .next { s with resp := answer i } := by
  obtain ⟨r, hr⟩ := exec_respond i
  rw [answer, hr, hr]

/-- Every request has a response (R22, R49). -/
theorem answer_ne_none (i : Instr) : answer i ≠ none := by
  obtain ⟨r, hr⟩ := exec_respond i
  rw [answer, hr]
  exact Option.some_ne_none r

/-! ### What a step does -/

theorem step_reset (r : Option Response) (rest : List HostInput) :
    step ⟨r, .reset :: rest⟩ = .next ⟨none, rest⟩ := rfl

theorem step_request_of_decode {p : Packet} {i : Instr} (h : decode p = .ok i) (r : Option Response)
    (rest : List HostInput) : step ⟨r, .request p :: rest⟩ = .next ⟨answer i, rest⟩ := by
  simp only [step, sample_of_decode h, exec_eq_answer, taken_script, List.tail_cons]

theorem step_request_of_error {p : Packet} {e : DecodeError} (h : decode p = .error e) (r : Option Response)
    (rest : List HostInput) : step ⟨r, .request p :: rest⟩ = .refused .incompleteRequest := by
  simp only [step, sample_of_error h]

/-- A step takes a complete input and leaves `RESP` as `respAfter` says (R22, R49, R123). -/
theorem step_of_completeInput {x : HostInput} (h : completeInput x = true) (r : Option Response)
    (rest : List HostInput) : step ⟨r, x :: rest⟩ = .next ⟨respAfter r x, rest⟩ := by
  cases x with
  | reset => exact step_reset r rest
  | request p =>
    have hd : decode p = .ok (p.request p.op) := decode_of_complete (Option.isNone_iff_eq_none.1 h)
    rw [step_request_of_decode hd, respAfter, hd]

/-- Settles O45: by the head input, a reset, a complete request or an incomplete one, none of which reads `RESP`. -/
theorem historyDoesNotMatter : Obligations.HistoryDoesNotMatter := by
  intro script r r' hne
  cases script with
  | nil => exact absurd rfl hne
  | cons x rest =>
    cases x with
    | reset => rw [step_reset, step_reset]
    | request p =>
      cases hd : decode p with
      | ok i => rw [step_request_of_decode hd, step_request_of_decode hd]
      | error e => rw [step_request_of_error hd, step_request_of_error hd]

/-! ### What a run does -/

/-- A run over complete inputs folds their effects on `RESP`, by induction on the inputs. -/
theorem run_of_complete (script : List HostInput) (r : Option Response)
    (h : ∀ x ∈ script, completeInput x = true) :
    Host.Core.run Sys2Proof.core script.length (⟨r, script⟩ : State) =
      .next (⟨script.foldl respAfter r, []⟩ : State) := by
  induction script generalizing r with
  | nil => rfl
  | cons x rest ih =>
    have hstep := step_of_completeInput (h x List.mem_cons_self) r rest
    rw [List.length_cons, run_next Sys2Proof.core rest.length hstep]
    exact ih (respAfter r x) fun y hy => h y (List.mem_cons_of_mem x hy)

/-- A well-formed request, presented as its encoding, leaves its answer in `RESP` whatever stood there (R22). -/
theorem respAfter_encode {i : Instr} (h : i.wellFormed = true) (r : Option Response) :
    respAfter r (.request (encode i)) = answer i := by
  rw [respAfter, decode_encode h]

/-- Settles O47: the fold over the inputs, whose last input overwrites `RESP` when it is a request. -/
theorem runFollowsTheHost : Obligations.RunFollowsTheHost := by
  refine ⟨fun s hs => run_of_complete s.script s.resp hs, fun s before i hs hi hscript => ⟨?_, answer_ne_none i⟩⟩
  have hlast : s.script.foldl respAfter s.resp = answer i := by
    rw [hscript, List.foldl_concat, respAfter_encode hi]
  rw [← hlast]
  exact run_of_complete s.script s.resp hs

/-! ### The invariant of `RESP` -/

theorem respond_wide_inv (s : State) (x : WideInt) : (s.respond (.wide x)).Inv := by
  rintro _ ⟨⟩
  trivial

theorem respond_bool_inv (s : State) (c : Bool) : (s.respond (.bool c)).Inv := by
  rintro _ ⟨⟩
  trivial

theorem raise_inv (s : State) (e : ErrorCode) : (s.raise e).Inv := by
  rintro _ ⟨⟩
  trivial

/-- The one text the unit makes is the numeral of its operand's value (R72), which is in range (R12). -/
theorem respond_toDecimal_inv (s : State) (a : WideInt) : (s.respond (.text (toDecimal a))).Inv := by
  obtain ⟨hlo, hhi⟩ := WideInt.V_range a
  rintro _ ⟨⟩
  exact ⟨a.V, hlo, hhi, WideInt.toDecimal_eq a⟩

/-- Every request leaves a response that the unit can give, from any state (R45, R72). -/
theorem exec_establishes_inv (i : Instr) (s : State) : ∃ t, exec i s = .next t ∧ t.Inv := by
  cases i with
  | todec a => exact ⟨_, rfl, respond_toDecimal_inv s a⟩
  | fromdec x =>
    simp only [exec, execFromdec]
    split
    · exact ⟨_, rfl, respond_wide_inv s _⟩
    · exact ⟨_, rfl, raise_inv s _⟩
  | div a b =>
    simp only [exec, execDiv]
    split
    · exact ⟨_, rfl, raise_inv s _⟩
    · exact ⟨_, rfl, respond_wide_inv s _⟩
  | rem a b =>
    simp only [exec, execRem]
    split
    · exact ⟨_, rfl, raise_inv s _⟩
    · exact ⟨_, rfl, respond_wide_inv s _⟩
  | neg a => exact ⟨_, rfl, respond_wide_inv s _⟩
  | fromint n => exact ⟨_, rfl, respond_wide_inv s _⟩
  | add a b => exact ⟨_, rfl, respond_wide_inv s _⟩
  | sub a b => exact ⟨_, rfl, respond_wide_inv s _⟩
  | mul a b => exact ⟨_, rfl, respond_wide_inv s _⟩
  | eq a b => exact ⟨_, rfl, respond_bool_inv s _⟩
  | ne a b => exact ⟨_, rfl, respond_bool_inv s _⟩
  | lt a b => exact ⟨_, rfl, respond_bool_inv s _⟩
  | le a b => exact ⟨_, rfl, respond_bool_inv s _⟩
  | gt a b => exact ⟨_, rfl, respond_bool_inv s _⟩
  | ge a b => exact ⟨_, rfl, respond_bool_inv s _⟩
  | reservedF => exact ⟨_, rfl, raise_inv s _⟩

/-- Settles O48: an idle step keeps the state, a reset empties `RESP`, and a transaction establishes the invariant. -/
theorem stepKeepsLegalResponse : Obligations.StepKeepsLegalResponse := by
  intro s t hs hstep
  obtain ⟨-, rfl⟩ | ⟨rest, -, rfl⟩ | ⟨p, rest, i, -, -, hexec⟩ := step_cases hstep
  · exact hs
  · rintro r ⟨⟩
  · obtain ⟨t', ht', hinv⟩ := exec_establishes_inv i s.taken
    rw [hexec] at ht'
    cases ht'
    exact hinv

end Sys2Proof.Machine

/-! The transaction (20_memory.md rules R32, R34): the step over a presented request is `exec` of what it decodes to, and
issuing a request a second time finds the state that the first left. -/

namespace Sys2Proof.Machine

/-- Settles O39: `sample` gives the request that the packet decodes to, and `taken` leaves the rest of the inputs. -/
theorem stepRunsThePresentedRequest : Obligations.StepRunsThePresentedRequest := by
  intro s p rest i hscript hdecode
  obtain ⟨r, script⟩ := s
  obtain rfl : script = .request p :: rest := hscript
  rw [step_request_of_decode hdecode, exec_eq_answer]

/-- Issuing a well-formed request is executing it: the presented encoding is sampled, decoded and taken again (R32). -/
theorem issue_eq_exec {i : Instr} (h : i.wellFormed = true) (s : State) : issue i s = exec i s :=
  stepRunsThePresentedRequest (s.present (encode i)) (encode i) s.script i (present_script s _) (decode_encode h)

/-- Settles O46: a transaction only writes the request's answer to `RESP`, and the answer does not depend on the state, so
the second write finds what it writes. -/
theorem repeatingARequestChangesNothing : Obligations.RepeatingARequestChangesNothing := by
  intro i s h
  have hissue (u : State) : issue i u = .next { u with resp := answer i } := by rw [issue_eq_exec h, exec_eq_answer]
  exact ⟨{ s with resp := answer i }, hissue s, hissue _⟩

end Sys2Proof.Machine

/-! The positions of the packed fields (30_encoding.md rules R39, R40, R42, R46): a packet cut into consecutive fields
and put together again, the bits above its length, and the field positions of requests and responses. -/

namespace Sys2Proof

/-- Settles O35: the operation, the length and each operand are read back from the fields that the encoder fills. -/
theorem decodeInvertsEncode : Obligations.DecodeInvertsEncode := fun _ h => decode_encode h

/-! ### Consecutive fields -/

theorem field_lt (p : Packet) (lo n : Nat) : p.field lo n < 2 ^ n := Nat.mod_lt _ (by positivity)

/-- A field is its low bits and the field above them. -/
theorem field_add (p : Packet) (lo m n : Nat) : p.field lo (m + n) = p.field lo m + 2 ^ m * p.field (m + lo) n := by
  rw [Packet.field, pow_add, Nat.mod_mul, Nat.add_comm m lo]
  simp only [Packet.field, ← Nat.shiftRight_eq_div_pow, Nat.shiftRight_add]

/-- A packet without bits above its length is its one field of that length. -/
theorem field_length {p : Packet} (h : p.value < 2 ^ p.length) : p.field 0 p.length = p.value := by
  rw [Packet.field, Nat.shiftRight_zero, Nat.mod_eq_of_lt h]

/-- The `n` bytes from bit `lo` upward: what a WideInt field and a text field both are. -/
def Packet.bytesAt (p : Packet) (lo n : Nat) : List Byte :=
  (List.range n).map fun k => BitVec.ofNat 8 (p.field (8 * k + lo) 8)

theorem wideAt_list (p : Packet) (lo : Nat) : (p.wideAt lo).list = p.bytesAt lo Config.SIZE := rfl

theorem s_eq_bytesAt (p : Packet) : p.s = p.bytesAt 20 p.slen := rfl

@[simp] theorem length_bytesAt (p : Packet) (lo n : Nat) : (p.bytesAt lo n).length = n := by simp [Packet.bytesAt]

/-- The bytes of a field denote the field. -/
theorem limbsToNat_bytesAt (p : Packet) (lo n : Nat) : limbsToNat (p.bytesAt lo n) = p.field lo (8 * n) := by
  induction n with
  | zero => simp [Packet.bytesAt, limbsToNat, Packet.field, Nat.mod_one]
  | succ n ih =>
    have hsucc : p.bytesAt lo (n + 1) = p.bytesAt lo n ++ [BitVec.ofNat 8 (p.field (8 * n + lo) 8)] := by
      simp [Packet.bytesAt, List.range_succ]
    have hbyte : p.field (8 * n + lo) 8 % 2 ^ 8 = p.field (8 * n + lo) 8 := Nat.mod_eq_of_lt (field_lt p _ _)
    rw [hsucc, limbsToNat_append, ih, length_bytesAt, Nat.mul_succ, field_add, Limbs.two_pow_eight_mul]
    simp only [limbsToNat, BitVec.toNat_ofNat, hbyte, Nat.mul_zero, Nat.add_zero]

/-- Byte `k` of a field stands in the eight bits from bit `8k + lo` upward. -/
theorem field_of_bytesAt {p : Packet} {lo n : Nat} {x : List Byte} (h : p.bytesAt lo n = x) {k : Nat} {c : Byte}
    (hk : x[k]? = some c) : p.field (8 * k + lo) 8 = c.toNat := by
  subst h
  obtain ⟨hlt, rfl⟩ := List.getElem?_eq_some_iff.1 hk
  simp only [Packet.bytesAt, List.getElem_map, List.getElem_range, BitVec.toNat_ofNat]
  exact (Nat.mod_eq_of_lt (field_lt p _ _)).symm

/-- Limb `k` of a WideInt field stands in the eight bits from bit `8k + lo` upward (R29). -/
theorem field_of_wideAt {p : Packet} {lo : Nat} {x : WideInt} (h : p.wideAt lo = x) {k : Nat} (hk : k < Config.SIZE) :
    p.field (8 * k + lo) 8 = (x.l k).toNat := by
  refine field_of_bytesAt (by rw [← wideAt_list, h]) ?_
  rw [Limbs.l, List.getD_eq_getElem _ _ (x.length_eq.symm ▸ hk), List.getElem?_eq_getElem]

/-- The unsigned reading of a WideInt field is the field. -/
theorem U_wideAt (p : Packet) (lo : Nat) : (p.wideAt lo).U = p.field lo Config.W :=
  limbsToNat_bytesAt p lo Config.SIZE

/-! ### Bits above the length of the format -/

/-- The three ways in which a packet can lack bits (R40, R50). -/
theorem missing_ne_none_iff (p : Packet) : p.missing ≠ none ↔
    p.length < 4 ∨ (p.op.format = .T ∧ p.length < 20) ∨ p.length < p.op.format.bits p.slen := by
  rw [Packet.missing]
  split_ifs with hcode hlen hoperands
  · exact iff_of_true nofun (.inl hcode)
  · exact iff_of_true nofun (.inr (.inl hlen))
  · exact iff_of_true nofun (.inr (.inr hoperands))
  · exact iff_of_false (not_not.2 rfl) (not_or.2 ⟨hcode, not_or.2 ⟨hlen, hoperands⟩⟩)

/-- What a complete packet has (R50). -/
theorem length_of_missing_eq_none {p : Packet} (h : p.missing = none) :
    4 ≤ p.length ∧ (p.op.format = .T → 20 ≤ p.length) ∧ p.op.format.bits p.slen ≤ p.length := by
  have hnot := mt (missing_ne_none_iff p).2 (not_not.2 h)
  simpa only [not_or, not_and, not_lt] using hnot

/-- A packet with `more` further bits, `junk` standing from its length upward. -/
def Packet.extend (p : Packet) (more junk : Nat) : Packet := ⟨p.length + more, p.value + 2 ^ p.length * junk⟩

section Extend

variable {p : Packet} (more junk : Nat)

/-- A field inside a packet does not see the bits above the packet. -/
theorem field_extend {lo n : Nat} (h : lo + n ≤ p.length) : (p.extend more junk).field lo n = p.field lo n := by
  obtain ⟨d, hd⟩ := Nat.exists_eq_add_of_le h
  have hv : p.value + 2 ^ p.length * junk = p.value + 2 ^ lo * (2 ^ n * (2 ^ d * junk)) := by
    rw [hd, pow_add, pow_add]
    ring
  rw [Packet.extend, Packet.field, Packet.field, hv, Nat.shiftRight_eq_div_pow, Nat.shiftRight_eq_div_pow,
    Nat.add_mul_div_left _ _ (by positivity), Nat.add_mul_mod_self_left]

theorem bytesAt_extend {lo n : Nat} (h : lo + 8 * n ≤ p.length) :
    (p.extend more junk).bytesAt lo n = p.bytesAt lo n := by
  refine List.map_congr_left fun k hk => ?_
  have hk := List.mem_range.1 hk
  rw [field_extend more junk (by omega)]

theorem wideAt_extend {lo : Nat} (h : lo + Config.W ≤ p.length) :
    (p.extend more junk).wideAt lo = p.wideAt lo :=
  Limbs.ext_list (bytesAt_extend more junk h)

theorem op_extend (h : 4 ≤ p.length) : (p.extend more junk).op = p.op := by
  rw [Packet.op, field_extend more junk h, Packet.op]

theorem slen_extend (h : 20 ≤ p.length) : (p.extend more junk).slen = p.slen := field_extend more junk h

theorem s_extend (h : 20 + 8 * p.slen ≤ p.length) : (p.extend more junk).s = p.s := by
  rw [s_eq_bytesAt, slen_extend more junk (by omega), bytesAt_extend more junk h, s_eq_bytesAt]

/-- The operands that a format reads all stand below its length (R39). -/
theorem request_extend (h : p.op.format.bits p.slen ≤ p.length) :
    (p.extend more junk).request p.op = p.request p.op := by
  have hU (hp : 4 + Config.W ≤ p.length) : (p.extend more junk).a = p.a := wideAt_extend more junk hp
  have hB (hp : 4 + 2 * Config.W ≤ p.length) : (p.extend more junk).a = p.a ∧ (p.extend more junk).b = p.b :=
    ⟨hU (by omega), wideAt_extend more junk (by omega)⟩
  cases ho : p.op <;> rw [ho] at h <;> simp only [Op.format, Format.bits] at h <;> simp only [Packet.request]
  case neg | todec => rw [hU h]
  case fromint => rw [Packet.i, Packet.i, field_extend more junk h]
  case fromdec => rw [s_extend more junk h]
  all_goals rw [(hB h).1, (hB h).2]

theorem bits_extend (hcode : 4 ≤ p.length) (htext : p.op.format = .T → 20 ≤ p.length) :
    (p.extend more junk).op.format.bits (p.extend more junk).slen = p.op.format.bits p.slen := by
  rw [op_extend more junk hcode]
  cases hf : p.op.format with
  | T => rw [slen_extend more junk (htext hf)]
  | _ => rfl

/-- Further bits change neither that a packet is complete nor what it decodes to (R39, R50; U4). -/
theorem decode_extend (h : p.missing = none) : decode (p.extend more junk) = decode p := by
  obtain ⟨hcode, htext, hbits⟩ := length_of_missing_eq_none h
  have hcomplete : (p.extend more junk).missing = none := by
    rw [missing_eq_none_iff, bits_extend more junk hcode htext]
    exact hbits.trans (Nat.le_add_right _ _)
  rw [decode_of_complete hcomplete, decode_of_complete h, op_extend more junk hcode, request_extend more junk hbits]

end Extend

/-- Settles O36: the encoding is a complete packet, and a complete packet decodes as before when it is extended. -/
theorem extraBitsAreNeverRead : Obligations.ExtraBitsAreNeverRead := by
  intro i more junk h
  exact (decode_extend more junk (missing_encode h)).trans (decode_encode h)

/-! ### Every complete packet -/

theorem op_request (p : Packet) (o : Op) : (p.request o).op = o := by cases o <;> rfl

/-- The text of a packet is as long as its 16-bit field says, so it fits (R9, R44). -/
theorem textFits_s (p : Packet) : textFits p.s = true := by
  rw [textFits, s_eq_bytesAt, length_bytesAt]
  exact decide_eq_true (field_lt p 4 16)

theorem wellFormed_request (p : Packet) (o : Op) : (p.request o).wellFormed = true := by
  cases o with
  | fromdec => exact textFits_s p
  | _ => rfl

theorem toNat_i (p : Packet) : p.i.toNat = p.field 4 32 := Nat.mod_eq_of_lt (field_lt p 4 32)

theorem code_op (p : Packet) : p.op.code = p.field 0 4 := Op.code_ofCode _ (field_lt p 0 4)

section Exact

variable {p : Packet} (hvalue : p.value < 2 ^ p.length)
include hvalue

/-- An exact packet is its operation code and the field above it. -/
theorem value_eq_code_add {n : Nat} (hlength : p.length = 4 + n) : p.value = p.op.code + 2 ^ 4 * p.field 4 n := by
  rw [← field_length hvalue, hlength, field_add, code_op]

theorem encodeU_a (hlength : p.length = Format.bits 0 .U) : encodeU p.op p.a = p := by
  have hv := value_eq_code_add hvalue hlength
  rw [← U_wideAt] at hv
  exact congrArg₂ Packet.mk hlength.symm hv.symm

theorem encodeB_a_b (hlength : p.length = Format.bits 0 .B) : encodeB p.op p.a p.b = p := by
  have hv := value_eq_code_add hvalue (n := Config.W + Config.W) (by rw [hlength, Format.bits, Nat.two_mul])
  rw [field_add, ← Config.MODULUS_eq_pow_W, ← U_wideAt, ← U_wideAt] at hv
  exact congrArg₂ Packet.mk hlength.symm hv.symm

theorem encodeI_i (hlength : p.length = Format.bits 0 .I) : encodeI p.op p.i = p := by
  have hv := value_eq_code_add hvalue (n := 32) hlength
  rw [← toNat_i] at hv
  exact congrArg₂ Packet.mk hlength.symm hv.symm

theorem encodeT_s (hlength : p.length = Format.bits p.slen .T) : encodeT p.op p.s = p := by
  have hs : p.s.length = p.slen := length_bytesAt p 20 p.slen
  have hv := value_eq_code_add hvalue (n := 16 + 8 * p.slen) (by rw [hlength, Format.bits]; omega)
  rw [field_add, ← limbsToNat_bytesAt, ← s_eq_bytesAt] at hv
  rw [encodeT, hs]
  exact congrArg₂ Packet.mk hlength.symm hv.symm

theorem encodeX_op (hlength : p.length = Format.bits 0 .X) : encodeX p.op = p := by
  have hv := field_length hvalue
  rw [hlength, Format.bits, ← code_op] at hv
  exact congrArg₂ Packet.mk hlength.symm hv

/-- An exact packet is the encoding of the request it carries, format by format (R40, R42). -/
theorem encode_request (hlength : p.length = p.op.format.bits p.slen) : encode (p.request p.op) = p := by
  have hU : p.op.format = .U → encodeU p.op p.a = p := fun hf => encodeU_a hvalue (by rw [hlength, hf]; rfl)
  have hB : p.op.format = .B → encodeB p.op p.a p.b = p := fun hf => encodeB_a_b hvalue (by rw [hlength, hf]; rfl)
  have hI : p.op.format = .I → encodeI p.op p.i = p := fun hf => encodeI_i hvalue (by rw [hlength, hf]; rfl)
  have hT : p.op.format = .T → encodeT p.op p.s = p := fun hf => encodeT_s hvalue (by rw [hlength, hf])
  have hX : p.op.format = .X → encodeX p.op = p := fun hf => encodeX_op hvalue (by rw [hlength, hf]; rfl)
  cases ho : p.op <;> rw [ho] at hU hB hI hT hX
  case neg | todec => exact hU rfl
  case fromint => exact hI rfl
  case fromdec => exact hT rfl
  case reservedF => exact hX rfl
  all_goals exact hB rfl

end Exact

/-- Settles O37: a packet as long as its format lacks nothing, so it decodes to the request of its fields, and an
exact one is these fields put together again. -/
theorem everyCompletePacketIsARequest : Obligations.EveryCompletePacketIsARequest := by
  intro p _ _ hbits
  exact ⟨p.request p.op, decode_of_complete ((missing_eq_none_iff p).2 hbits), wellFormed_request p p.op,
    op_request p p.op, fun hlength hvalue => encode_request hvalue hlength⟩

/-! ### The field positions of a request -/

theorem field_code_encode (i : Instr) : (encode i).field 0 4 = i.op.code := by rw [← code_op, op_encode]

/-- Limb `k` of `a` in format U (R40). -/
theorem field_a_encodeU (o : Op) (a : WideInt) {k : Nat} (hk : k < Config.SIZE) :
    (encodeU o a).field (8 * k + 4) 8 = (a.l k).toNat :=
  field_of_wideAt (a_encodeU o a) hk

/-- Limb `k` of `a` and of `b` in format B (R40). -/
theorem field_a_b_encodeB (o : Op) (a b : WideInt) {k : Nat} (hk : k < Config.SIZE) :
    (encodeB o a b).field (8 * k + 4) 8 = (a.l k).toNat ∧
      (encodeB o a b).field (8 * k + 2036) 8 = (b.l k).toNat :=
  ⟨field_of_wideAt (a_encodeB o a b) hk, field_of_wideAt (b_encodeB o a b) hk⟩

theorem field_i_encodeI (o : Op) (i : BitVec 32) : (encodeI o i).field 4 32 = i.toNat := by
  rw [← toNat_i, i_encodeI]

/-- Byte `k` of the text in format T (R40). -/
theorem field_s_encodeT (o : Op) {s : List Byte} (h : textFits s = true) {k : Nat} {c : Byte} (hk : s[k]? = some c) :
    (encodeT o s).field (8 * k + 20) 8 = c.toNat :=
  field_of_bytesAt (s_encodeT o h) hk

/-- Settles O34: each instruction is packed by the encoder of its format, whose fields are read at their positions. -/
theorem packedFieldPositions : Obligations.PackedFieldPositions := by
  refine ⟨field_code_encode, fun a i hi => ?_, fun a b i hi => ?_, fun i => ⟨field_i_encodeI _ i, rfl⟩,
    fun s hs => ⟨slen_encodeT _ hs, rfl, fun k c => field_s_encodeT _ hs⟩, rfl⟩
  · have henc : encode i = encodeU i.op a := by
      simp only [List.mem_cons, List.not_mem_nil, or_false] at hi
      obtain rfl | rfl := hi <;> rfl
    rw [henc]
    exact ⟨rfl, fun k hk => field_a_encodeU _ a hk⟩
  · have henc : encode i = encodeB i.op a b := by
      simp only [List.mem_cons, List.not_mem_nil, or_false] at hi
      obtain rfl | rfl | rfl | rfl | rfl | rfl | rfl | rfl | rfl | rfl | rfl := hi <;> rfl
    rw [henc]
    exact ⟨rfl, fun k hk => field_a_b_encodeB _ a b hk⟩

/-! ### Words written out -/

/-- A word that is the encoding of a well-formed request decodes to it. -/
theorem decode_of_encode_eq {p : Packet} {i : Instr} (h : encode i = p) (hi : i.wellFormed = true) : decode p = .ok i :=
  h ▸ decode_encode hi

/-- Settles O38: each word is the encoding of its request. -/
theorem plainWordsDecode : Obligations.PlainWordsDecode := by
  have hthree : (Limbs.wide Config.SIZE 3).U = 3 := Limbs.U_wide_of_lt (by decide +kernel)
  have hneg : encode (.neg (Limbs.wide Config.SIZE 3)) = ⟨2036, 0x30⟩ := by
    rw [encode, encodeU, hthree]
    rfl
  exact ⟨decode_of_encode_eq (by decide) rfl, decode_of_encode_eq (by decide) (by decide),
    decode_of_encode_eq (by decide) (by decide), decode_of_encode_eq hneg rfl, decode_of_encode_eq rfl rfl⟩

end Sys2Proof

/-! Responses (30_encoding.md rules R45 to R48; 60_exceptions.md rule R122): the payload of each operation, the length of
a text, the fields of a packed response, and the host's reading of it. -/

namespace Sys2Proof.Machine

/-- Settles O32: by the operation; the four that can answer with an error branch once each. -/
theorem payloadKindIsFixedByOperation : Obligations.PayloadKindIsFixedByOperation := by
  intro i s
  cases i with
  | fromdec t =>
    simp only [exec, execFromdec]
    split
    · exact .inl ⟨_, rfl, rfl⟩
    · exact .inr ⟨_, rfl, .inr (.inr (.inl rfl))⟩
  | div a b =>
    simp only [exec, execDiv]
    split
    · exact .inr ⟨_, rfl, .inl rfl⟩
    · exact .inl ⟨_, rfl, rfl⟩
  | rem a b =>
    simp only [exec, execRem]
    split
    · exact .inr ⟨_, rfl, .inr (.inl rfl)⟩
    · exact .inl ⟨_, rfl, rfl⟩
  | reservedF => exact .inr ⟨_, rfl, .inr (.inr (.inr rfl))⟩
  | _ => exact .inl ⟨_, rfl, rfl⟩

/-! ### The length of a text -/

theorem length_decimalNumeral {v : Int} (hv : v ≠ 0) :
    (decimalNumeral v).length = (if v < 0 then 1 else 0) + (Nat.digits 10 v.natAbs).length := by
  rw [decimalNumeral, if_neg hv, List.length_append, List.length_map, List.length_reverse]
  split <;> rfl

theorem length_decimalNumeral_pos (v : Int) : 1 ≤ (decimalNumeral v).length := by
  by_cases hv : v = 0
  · subst hv
    exact le_rfl
  · have hdigits : 0 < (Nat.digits 10 v.natAbs).length := (Nat.lt_digits_length_iff (by decide) _).2 (by omega)
    rw [length_decimalNumeral hv]
    omega

/-- The magnitude of `MIN` has 612 decimal digits (R48). -/
theorem HALF_digits : 10 ^ 611 ≤ Config.HALF ∧ Config.HALF < 10 ^ 612 := by
  rw [Config.HALF_eq_pow_W]
  decide +kernel

theorem length_decimalNumeral_le {v : Int} (hlo : Config.MIN ≤ v) (hhi : v ≤ Config.MAX) :
    (decimalNumeral v).length ≤ 613 := by
  rw [WideInt.MIN_eq] at hlo
  rw [WideInt.MAX_eq] at hhi
  by_cases hv : v = 0
  · subst hv
    decide
  · have hdigits : (Nat.digits 10 v.natAbs).length ≤ 612 :=
      (Nat.digits_length_le_iff (by decide) _).2 (lt_of_le_of_lt (by omega) HALF_digits.2)
    rw [length_decimalNumeral hv]
    split <;> omega

theorem length_decimalNumeral_MIN : (decimalNumeral Config.MIN).length = 613 := by
  have hneg : Config.MIN < 0 := by
    have := small_le_HALF
    rw [WideInt.MIN_eq]
    omega
  have habs : Config.MIN.natAbs = Config.HALF := by rw [WideInt.MIN_eq, Int.natAbs_neg, Int.natAbs_natCast]
  have hdigits : (Nat.digits 10 Config.HALF).length = 612 :=
    le_antisymm ((Nat.digits_length_le_iff (by decide) _).2 HALF_digits.2)
      ((Nat.lt_digits_length_iff (by decide) _).2 HALF_digits.1)
  rw [length_decimalNumeral hneg.ne, if_pos hneg, habs, hdigits]

/-- A TEXT that the unit can give has between 1 and 613 bytes (R48). -/
theorem length_of_legal_text {t : List Byte} (h : (Response.ok (.text t)).legal) :
    1 ≤ t.length ∧ t.length ≤ 613 := by
  obtain ⟨v, hlo, hhi, rfl⟩ := h
  exact ⟨length_decimalNumeral_pos v, length_decimalNumeral_le hlo hhi⟩

/-- Every reachable state has the invariant: the state after reset has it, whatever the host plans, and a step
keeps it. -/
theorem inv_of_reachable {s : State} (h : Reachable s) : s.Inv := by
  induction h with
  | start script =>
    rintro r ⟨⟩
  | step _ ht ih => exact stepKeepsLegalResponse _ _ ih ht

/-- Settles O12: a reachable text is the numeral of a representable value, and `MIN` has the longest one. -/
theorem longestTextIsThatOfMin : Obligations.LongestTextIsThatOfMin :=
  ⟨fun _ hs _ ht => length_of_legal_text (inv_of_reachable hs _ ht), length_decimalNumeral_MIN⟩

/-! ### The fields of a packed response -/

/-- The status stands in bits 1..0 of every response (R46). -/
theorem field_status_encodeResponse (r : Response) : (encodeResponse r).field 0 2 = r.status := by
  have hok (high : Nat) (n : Nat) : (⟨n, 2 ^ 2 * high⟩ : Packet).field 0 2 = 0 := by
    rw [Packet.field, Nat.shiftRight_zero, Nat.mul_mod_right]
  cases r with
  | ok x => cases x <;> exact hok _ _
  | error e => cases e <;> rfl

theorem wideAt_encodeResponse (r : WideInt) : (encodeResponse (.ok (.wide r))).wideAt 2 = r :=
  wideAt_of_value (lowPart := 0) (high := 0) (by rw [encodeResponse, Nat.mul_zero, Nat.add_zero, Nat.zero_add])
    (by decide)

theorem textLength_encodeResponse {t : List Byte} (h : textFits t = true) :
    textLength (encodeResponse (.ok (.text t))) = t.length :=
  field_of_value (lowPart := 0) (by rw [encodeResponse, Nat.zero_add]) (by decide) (length_lt_of_textFits h)

/-- The bytes of a packed text from bit 18 upward are the text (R46). -/
theorem bytesAt_encodeResponse {t : List Byte} (h : textFits t = true) :
    (encodeResponse (.ok (.text t))).bytesAt 18 t.length = t := by
  have hlen := length_lt_of_textFits h
  refine text_of_value (lowPart := 2 ^ 2 * t.length) ?_ (by omega)
  rw [encodeResponse]
  ring

theorem value_encodeResponse_wide_lt (r : WideInt) :
    (encodeResponse (.ok (.wide r))).value < 2 ^ (2 + Config.W) := by
  have hU := WideInt.U_lt r
  rw [pow_add, ← Config.MODULUS_eq_pow_W]
  change 2 ^ 2 * r.U < _
  omega

theorem value_encodeResponse_text_lt {t : List Byte} (h : textFits t = true) :
    (encodeResponse (.ok (.text t))).value < 2 ^ (18 + 8 * t.length) := by
  have hlen := length_lt_of_textFits h
  have hbytes := limbsToNat_lt t
  rw [pow_add, Limbs.two_pow_eight_mul]
  change 2 ^ 2 * (t.length + 2 ^ 16 * limbsToNat t) < _
  omega

/-- Settles O54: payload by payload, from the value that the encoder puts above the status. -/
theorem packedResponsePositions : Obligations.PackedResponsePositions := by
  refine ⟨field_status_encodeResponse, fun _ => rfl,
    fun r => ⟨rfl, value_encodeResponse_wide_lt r, fun k hk => ?_⟩,
    fun c => by cases c <;> decide, fun t ht => ⟨rfl, value_encodeResponse_text_lt ht, textLength_encodeResponse ht,
      fun k c hk => ?_⟩⟩
  · exact field_of_wideAt (wideAt_encodeResponse r) hk
  · exact field_of_bytesAt (bytesAt_encodeResponse ht) hk

/-! ### The host's reading of a response -/

theorem ErrorCode.ofCode_code (e : ErrorCode) : ErrorCode.ofCode e.code = some e := by cases e <;> rfl

/-- An error is read back whatever the operation was, from its status alone (R110, R122). -/
theorem readResponse_error (o : Op) (e : ErrorCode) : readResponse o (encodeResponse (.error e)) = some (.error e) := by
  rw [readResponse, field_status_encodeResponse, Response.status, ErrorCode.ofCode_code]

theorem textFits_of_legal {t : List Byte} (h : (Response.ok (.text t)).legal) : textFits t = true :=
  decide_eq_true (lt_of_le_of_lt (length_of_legal_text h).2 (by decide))

/-- A payload that the unit can give is read back by its kind (R45, R122). -/
theorem readPayload_encodeResponse {x : Payload} (h : (Response.ok x).legal) :
    readPayload (encodeResponse (.ok x)) x.kind = x := by
  cases x with
  | wide r => exact congrArg Payload.wide (wideAt_encodeResponse r)
  | bool c => cases c <;> rfl
  | text t =>
    have ht := textFits_of_legal h
    refine congrArg Payload.text ?_
    rw [textLength_encodeResponse ht]
    exact bytesAt_encodeResponse ht

theorem readResponse_ok {o : Op} {x : Payload} (hkind : o.payloadKind = some x.kind) (h : (Response.ok x).legal) :
    readResponse o (encodeResponse (.ok x)) = some (.ok x) := by
  rw [readResponse, field_status_encodeResponse, hkind]
  exact congrArg (fun y => some (Response.ok y)) (readPayload_encodeResponse h)

/-- Settles O33: the response has the kind that the operation fixes (O32) and is one the unit can give, so the host's
reading by that kind gives it back. -/
theorem responsePortRoundTrip : Obligations.ResponsePortRoundTrip := by
  intro i s t r hexec hresp
  have hport : t.port = some (encodeResponse r) := by rw [State.port, hresp, Option.map_some]
  have hlegal : r.legal := by
    obtain ⟨t', ht', hinv⟩ := exec_establishes_inv i s
    cases hexec.symm.trans ht'
    exact hinv r hresp
  refine ⟨?_, hport⟩
  obtain ⟨x, hx, hkind⟩ | ⟨e, he, -⟩ := payloadKindIsFixedByOperation i s
  · cases hexec.symm.trans hx
    cases hresp
    exact readResponse_ok hkind hlegal
  · cases hexec.symm.trans he
    cases hresp
    exact readResponse_error i.op e

end Sys2Proof.Machine

/-! Incomplete requests, and the host's scripts (30_encoding.md rules R50 to R54). -/

namespace Sys2Proof.Machine

/-- A presented packet that lacks bits is refused by name (assumption log 2). -/
theorem step_of_missing {s : State} {p : Packet} {rest : List HostInput} (hscript : s.script = .request p :: rest)
    (h : p.missing ≠ none) : step s = .refused .incompleteRequest := by
  obtain ⟨e, he⟩ := Option.ne_none_iff_exists'.1 h
  obtain ⟨r, script⟩ := s
  obtain rfl : script = .request p :: rest := hscript
  exact step_request_of_error (decode_of_missing he) r rest

/-- A step answers a next state unless the host presents a packet that lacks bits. -/
theorem step_next_of_not_missing {s : State}
    (h : ∀ p rest, s.script = .request p :: rest → p.missing = none) : ∃ t, step s = .next t := by
  obtain ⟨r, script⟩ := s
  cases script with
  | nil => exact ⟨_, rfl⟩
  | cons x rest =>
    have hx : completeInput x = true := by
      cases x with
      | reset => rfl
      | request p => exact Option.isNone_iff_eq_none.2 (h p rest rfl)
    exact ⟨_, step_of_completeInput hx r rest⟩

/-- Settles O43: a packet that lacks bits is refused, and with any other head input the step answers a next state. -/
theorem onlyIncompleteRequestsStop : Obligations.OnlyIncompleteRequestsStop := by
  refine ⟨fun s => ⟨fun hstop => ?_, ?_⟩, fun s p rest => step_of_missing, missing_ne_none_iff⟩
  · by_contra hnone
    exact hstop (step_next_of_not_missing fun p rest hscript => by_contra fun hp => hnone ⟨p, rest, hscript, hp⟩)
  · rintro ⟨p, rest, hscript, hp⟩ ⟨t, ht⟩
    rw [step_of_missing hscript hp] at ht
    cases ht

/-! ### Operands and lines -/

/-- `$n` stands for what the response to line `n` holds, if that is a WIDE payload; there is no line 0 (R52, R54). -/
theorem value_result_iff {results : List Response} {n : Nat} {x : WideInt} :
    (WideOperand.result n).value results = .ok x ↔ 1 ≤ n ∧ results[n - 1]? = some (.ok (.wide x)) := by
  cases n with
  | zero => exact iff_of_false nofun (by omega)
  | succ n =>
    simp only [WideOperand.value, Nat.add_sub_cancel, Nat.le_add_left, true_and]
    split
    · next r hr => simp only [hr, Except.ok.injEq, Option.some.injEq, Response.ok.injEq, Payload.wide.injEq]
    · next c hc => simp only [hc, reduceCtorEq, Option.some.injEq, Response.ok.injEq]
    · next t ht => simp only [ht, reduceCtorEq, Option.some.injEq, Response.ok.injEq]
    · next e he => simp only [he, reduceCtorEq, Option.some.injEq]
    · next hnone => simp only [hnone, reduceCtorEq]

/-- Settles O52: by the form of the operand; for `$n` by what the response to line `n` holds. -/
theorem wideOperandValues : Obligations.WideOperandValues := by
  intro results
  refine ⟨fun v hlo hhi => ⟨_, if_pos ⟨hlo, hhi⟩, WideInt.V_ofInt hlo hhi⟩, fun v hv => if_neg (by omega),
    ⟨_, _, rfl, WideInt.V_MIN, rfl, WideInt.V_MAX⟩, fun x => dif_pos x.length_eq,
    fun n x => value_result_iff⟩

/-- The constants that `FROMINT` loads for the pseudo-instructions (R53). -/
theorem fromInteger_zero : fromInteger Config.SIZE 0 = WideInt.ZERO :=
  Limbs.V_injective (by rw [WideInt.V_fromInteger, WideInt.V_ZERO]; rfl)

theorem fromInteger_one : fromInteger Config.SIZE 1 = WideInt.ONE :=
  Limbs.V_injective (by rw [WideInt.V_fromInteger, WideInt.V_ONE]; rfl)

theorem issue_fromint (i : BitVec 32) (s : State) :
    issue (.fromint i) s = .next (s.respond (.wide (fromInteger Config.SIZE i))) := issue_eq_exec rfl s

/-- Settles O51: both spellings assemble to the same `FROMINT`, whose value is 0 or 1. -/
theorem pseudoInstructionsGiveZeroAndOne : Obligations.PseudoInstructionsGiveZeroAndOne := by
  intro results s
  refine ⟨⟨.fromint 0, rfl, rfl, ?_⟩, ⟨.fromint 1, rfl, rfl, ?_⟩⟩
  · rw [issue_fromint, fromInteger_zero]
  · rw [issue_fromint, fromInteger_one]

theorem wellFormed_of_assembleUnary {a : WideInt} {o : Op} {i : Instr} (h : assembleUnary a o = .ok i) :
    i.wellFormed = true := by
  cases o <;> cases h <;> rfl

theorem wellFormed_of_assembleBinary {a b : WideInt} {o : Op} {i : Instr} (h : assembleBinary a b o = .ok i) :
    i.wellFormed = true := by
  cases o <;> cases h <;> rfl

/-- The assembler gives well-formed requests only: the one check, of a text's length, is made on its line (R9, R51). -/
theorem wellFormed_of_assemble {line : Line} {results : List Response} {i : Instr} (h : line.assemble results = .ok i) :
    i.wellFormed = true := by
  cases line with
  | unary o a =>
    simp only [Line.assemble] at h
    split at h
    · exact wellFormed_of_assembleUnary h
    · cases h
  | binary o a b =>
    simp only [Line.assemble] at h
    split at h
    · exact wellFormed_of_assembleBinary h
    · cases h
    · cases h
  | integer n =>
    simp only [Line.assemble] at h
    split at h
    · cases h; rfl
    · cases h
  | text s =>
    simp only [Line.assemble] at h
    split at h
    · next hs => cases h; exact hs
    · cases h
  | reserved => cases h; rfl
  | zero => cases h; rfl
  | one => cases h; rfl

/-- Settles O53: an assembled line is well formed, so issuing it executes its request, which has a response. -/
theorem scriptIssuesItsLines : Obligations.ScriptIssuesItsLines := by
  intro line lines s results i h
  obtain ⟨r, hr⟩ := exec_respond i
  have hissue : issue i s = .next { s with resp := some r } := by rw [issue_eq_exec (wellFormed_of_assemble h), hr]
  refine ⟨r, hr s, ?_⟩
  simp only [runScript, h, hissue]

end Sys2Proof.Machine

/-! The complement engine (40_complement.md rules R57, R58): the two fixed points of `negate`, and the magnitude by the
sign bit. -/

namespace Sys2Proof.Machine

/-! ### Negation -/

theorem exec_neg (a : WideInt) (s : State) : exec (.neg a) s = .next (s.respond (.wide (negate a))) := rfl

/-- Only `ZERO` and `MIN` are their own negation: `2^W - u = u` leaves `u = 2^(W-1)` when `u` is not 0 (R57 (e)). -/
theorem negate_eq_self_iff {a : WideInt} : negate a = a ↔ a = WideInt.ZERO ∨ a = WideInt.MIN := by
  have hlt := WideInt.U_lt a
  have hhalf := MODULUS_eq_HALF
  rw [← Limbs.U_inj, ← Limbs.U_inj, ← Limbs.U_inj, WideInt.U_negate, WideInt.U_ZERO, WideInt.U_MIN]
  obtain hzero | hpos := Nat.eq_zero_or_pos a.U
  · rw [hzero, Nat.sub_zero, Nat.mod_self]
    exact iff_of_true rfl (.inl rfl)
  · rw [Nat.mod_eq_of_lt (by omega)]
    omega

theorem negate_ZERO : negate WideInt.ZERO = WideInt.ZERO := negate_eq_self_iff.2 (.inl rfl)

/-- The least value negates to itself, read unsigned `2^W - 2^(W-1)` (R57 (c)). -/
theorem negate_MIN : negate WideInt.MIN = WideInt.MIN := negate_eq_self_iff.2 (.inr rfl)

/-- Settles O4: NEG answers `negate a`, whose closed form, exact value, double application and fixed points are lemmas of
their own. -/
theorem negComplementsModuloWidth : Obligations.NegComplementsModuloWidth := by
  refine ⟨fun a s => ⟨negate a, exec_neg a s, WideInt.U_negate a, WideInt.V_negate, ?_, negate_eq_self_iff⟩,
    fun s => ⟨?_, ?_⟩⟩
  · rw [exec_neg, negate_negate]
  · rw [exec_neg, negate_ZERO]
  · rw [exec_neg, negate_MIN]

/-! ### The magnitude -/

theorem mag_of_sign_false {x : WideInt} (h : x.sign = false) : mag x = x := by rw [mag, h, if_neg Bool.false_ne_true]

theorem mag_of_sign_true {x : WideInt} (h : x.sign = true) : mag x = negate x := by rw [mag, if_pos h]

theorem sign_MIN : WideInt.MIN.sign = true := by
  have hhalf := small_le_HALF
  rw [WideInt.sign_iff, WideInt.V_MIN, WideInt.MIN_eq]
  omega

/-- `mag` gives `MIN` back as a limb list, because `negate` does (R58). -/
theorem mag_MIN : mag WideInt.MIN = WideInt.MIN := by rw [mag_of_sign_true sign_MIN, negate_MIN]

/-- The magnitude has at most the unsigned reading of `MIN`, which is why it is read through `U` (R58). -/
theorem U_mag_le_HALF (x : WideInt) : (mag x).U ≤ Config.HALF := by
  rw [Config.HALF_eq]
  exact U_mag_le SIZE_pos x

/-- Settles O5: by the sign bit; the readings of `mag` hold in both cases, and `MIN` is where the bound is met. -/
theorem magnitudeIsAbsoluteValue : Obligations.MagnitudeIsAbsoluteValue := by
  refine ⟨fun x => ⟨mag_of_sign_false, mag_of_sign_true, ?_, U_mag_le_HALF x⟩, mag_MIN, ?_⟩
  · rw [WideInt.U_mag, Int.natCast_natAbs]
  · rw [mag_MIN, WideInt.U_MIN]

end Sys2Proof.Machine

/-! Construction and conversion (41_construction_conversion.md): FROMINT as sign extension (R63), FROMDEC as the reading of
a numeral modulo the width (R65, R66, R68), and the ordinary decimal numeral that TODEC writes (R72). -/

namespace Sys2Proof

/-! ### Values with a given signed reading -/

namespace Limbs

variable {n : Nat}

theorem ofInt_natCast (n u : Nat) : ofInt n u = wide n u := by
  apply U_injective
  have h : ((ofInt n u).U : Int) = (wide n u).U := by rw [U_ofInt, U_wide, Int.natCast_emod]
  exact_mod_cast h

/-- Limb `k` is the base-256 digit of weight `256^k` of the signed reading too: the readings differ by a multiple of
`256^n`, which no limb sees (R12, R26). -/
theorem l_toNat_eq_V (x : Limbs n) {k : Nat} (hk : k < n) : ((x.l k).toNat : Int) = x.V / 256 ^ k % 256 := by
  have hsplit : (x.U : Int) = x.V + 256 ^ k * (256 * (-(256 ^ (n - k - 1)) * (x.V / 256 ^ n))) := by
    have hmod : (x.U : Int) = x.V % 256 ^ n := by
      rw [← x.V_emod, two_pow_eight_mul, Nat.cast_pow]
      rfl
    have hpow : (256 : Int) ^ n = 256 ^ k * (256 * 256 ^ (n - k - 1)) := by
      rw [← pow_succ', ← pow_add]
      congr 1
      omega
    have hdiv := Int.mul_ediv_add_emod x.V (256 ^ n)
    rw [hpow] at hdiv hmod ⊢
    linarith
  have hpos : (256 : Int) ^ k ≠ 0 := by positivity
  rw [l_toNat, Int.natCast_emod, Int.natCast_ediv, hsplit]
  push_cast
  rw [Int.add_mul_ediv_left _ _ hpos, Int.add_mul_emod_self_left]

end Limbs

namespace WideInt

/-- Every value is the one with its own signed reading (R14). -/
theorem ofInt_V (x : WideInt) : Limbs.ofInt Config.SIZE x.V = x :=
  Limbs.V_injective (V_ofInt (V_range x).1 (V_range x).2)

theorem ofInt_zero : Limbs.ofInt Config.SIZE 0 = ZERO := Limbs.ofInt_natCast Config.SIZE 0

theorem ofInt_MIN : Limbs.ofInt Config.SIZE Config.MIN = MIN := by rw [← V_MIN, ofInt_V]

end WideInt

/-! ### Digit strings -/

theorem digitsValue_append_singleton (ds : List Byte) (c : Byte) :
    digitsValue (ds ++ [c]) = 10 * digitsValue ds + (c.toNat - 0x30) := by
  simp only [digitsValue, List.foldl_concat]

/-- A zero in front does not change the number (R65). -/
theorem digitsValue_cons_zero (ds : List Byte) : digitsValue (0x30 :: ds) = digitsValue ds := rfl

theorem digitString_cons_zero {ds : List Byte} (h : DigitString ds) : DigitString (0x30 :: ds) :=
  ⟨List.cons_ne_nil _ _, List.forall_mem_cons.2 ⟨by decide, h.2⟩⟩

theorem not_digitString_minus (ds : List Byte) : ¬DigitString (0x2D :: ds) := fun h =>
  absurd (h.2 0x2D List.mem_cons_self) (by decide)

/-- What keeps a text from being a digit string is that it is empty or that a byte of it is no digit. -/
theorem not_digitString_iff (ds : List Byte) :
    ¬DigitString ds ↔ ds = [] ∨ ∃ (k : Nat) (c : Byte), ds[k]? = some c ∧ ¬(0x30 ≤ c.toNat ∧ c.toNat ≤ 0x39) := by
  have hmem (c : Byte) : c ∈ ds ↔ ∃ k, ds[k]? = some c := List.mem_iff_getElem?
  simp only [DigitString, hmem]
  push Not
  constructor
  · intro h
    by_cases hnil : ds = []
    · exact .inl hnil
    · obtain ⟨c, ⟨k, hk⟩, hc⟩ := h hnil
      exact .inr ⟨k, c, hk, hc⟩
  · rintro (hnil | ⟨k, c, hk, hc⟩) hne
    · exact absurd hnil hne
    · exact ⟨c, ⟨k, hk⟩, hc⟩

/-! ### Well-formed numerals -/

theorem wellFormedNumeral_minus_iff (ds : List Byte) : WellFormedNumeral (0x2D :: ds) ↔ DigitString ds := by
  constructor
  · rintro ⟨ds', hdigits, heq | heq⟩
    · exact absurd (heq ▸ hdigits) (not_digitString_minus ds)
    · rwa [(List.cons.inj heq).2]
  · exact fun h => ⟨ds, h, .inr rfl⟩

theorem wellFormedNumeral_iff_digitString {t : List Byte} (h : ∀ ds, t ≠ 0x2D :: ds) :
    WellFormedNumeral t ↔ DigitString t := by
  constructor
  · rintro ⟨ds, hdigits, rfl | heq⟩
    · exact hdigits
    · exact absurd heq (h ds)
  · exact fun hdigits => ⟨t, hdigits, .inl rfl⟩

/-- The malformed texts of R66: (a) the empty one, (b) a lone `'-'`, (c) a byte that is no digit, but for a `'-'` at
position 0. -/
theorem not_wellFormedNumeral_iff (t : List Byte) :
    ¬WellFormedNumeral t ↔ (t = [] ∨ t = [0x2D] ∨
      ∃ (k : Nat) (c : Byte), t[k]? = some c ∧ ¬(0x30 ≤ c.toNat ∧ c.toNat ≤ 0x39) ∧ ¬(k = 0 ∧ c = 0x2D)) := by
  by_cases hsign : ∃ ds, t = 0x2D :: ds
  · obtain ⟨ds, rfl⟩ := hsign
    rw [wellFormedNumeral_minus_iff, not_digitString_iff]
    constructor
    · rintro (rfl | ⟨k, c, hk, hc⟩)
      · exact .inr (.inl rfl)
      · exact .inr (.inr ⟨k + 1, c, hk, hc, by omega⟩)
    · rintro (hnil | hlone | ⟨k, c, hk, hc, hplace⟩)
      · cases hnil
      · exact .inl (List.cons.inj hlone).2
      · cases k with
        | zero => exact absurd ⟨rfl, (Option.some.inj hk).symm⟩ hplace
        | succ k => exact .inr ⟨k, c, hk, hc⟩
  · push Not at hsign
    rw [wellFormedNumeral_iff_digitString hsign, not_digitString_iff]
    constructor
    · rintro (hnil | ⟨k, c, hk, hc⟩)
      · exact .inl hnil
      · refine .inr (.inr ⟨k, c, hk, hc, ?_⟩)
        rintro ⟨rfl, rfl⟩
        obtain ⟨ds, hds⟩ := List.head?_eq_some_iff.1 (List.head?_eq_getElem? ▸ hk)
        exact hsign ds hds
    · rintro (hnil | hlone | ⟨k, c, hk, hc, -⟩)
      · exact .inl hnil
      · exact absurd hlone (hsign [])
      · exact .inr ⟨k, c, hk, hc⟩

/-! ### The ordinary decimal numeral -/

/-- The character of a decimal digit, as `decimalNumeral` writes it (R72). -/
def asciiDigit (d : Nat) : Byte := BitVec.ofNat 8 (0x30 + d)

theorem toNat_asciiDigit {d : Nat} (h : d < 10) : (asciiDigit d).toNat = 0x30 + d := by
  rw [asciiDigit, BitVec.toNat_ofNat, Nat.mod_eq_of_lt (by omega)]

theorem decimalNumeral_of_pos {v : Int} (h : 0 < v) :
    decimalNumeral v = (Nat.digits 10 v.natAbs).reverse.map asciiDigit := by
  rw [decimalNumeral, if_neg h.ne', if_neg h.not_gt, List.nil_append]
  rfl

theorem decimalNumeral_of_neg {v : Int} (h : v < 0) : decimalNumeral v = 0x2D :: decimalNumeral (-v) := by
  rw [decimalNumeral_of_pos (Int.neg_pos_of_neg h), Int.natAbs_neg, decimalNumeral, if_neg h.ne, if_pos h]
  rfl

theorem digitString_decimalNumeral {v : Int} (h : 0 ≤ v) : DigitString (decimalNumeral v) := by
  refine ⟨List.ne_nil_of_length_pos (Machine.length_decimalNumeral_pos v), fun c hc => ?_⟩
  obtain rfl | hpos := h.eq_or_lt
  · obtain rfl := List.mem_singleton.1 hc
    decide
  · rw [decimalNumeral_of_pos hpos] at hc
    obtain ⟨d, hd, rfl⟩ := List.mem_map.1 hc
    have hlt : d < 10 := Nat.digits_lt_base (by decide) (List.mem_reverse.1 hd)
    rw [toNat_asciiDigit hlt]
    omega

/-- Written most significant first, a list of digits denotes the number it stands for. -/
theorem digitsValue_map_asciiDigit (l : List Nat) (h : ∀ d ∈ l, d < 10) :
    digitsValue (l.reverse.map asciiDigit) = Nat.ofDigits 10 l := by
  induction l with
  | nil => rfl
  | cons d l ih =>
    obtain ⟨hd, hl⟩ := List.forall_mem_cons.1 h
    rw [List.reverse_cons, List.map_append, List.map_singleton, digitsValue_append_singleton, ih hl,
      toNat_asciiDigit hd, Nat.ofDigits_cons]
    omega

theorem digitsValue_decimalNumeral {v : Int} (h : 0 ≤ v) : (digitsValue (decimalNumeral v) : Int) = v := by
  obtain rfl | hpos := h.eq_or_lt
  · rfl
  · rw [decimalNumeral_of_pos hpos, digitsValue_map_asciiDigit _ fun _ => Nat.digits_lt_base (by decide),
      Nat.ofDigits_digits, Int.natAbs_of_nonneg h]

/-- Only the numeral of zero begins with `'0'`: the most significant digit of a positive number is not 0 (R72). -/
theorem decimalNumeral_of_head_zero {v : Int} (h : 0 ≤ v) (hhead : (decimalNumeral v).head? = some 0x30) :
    decimalNumeral v = [0x30] := by
  obtain rfl | hpos := h.eq_or_lt
  · rfl
  · exfalso
    rw [decimalNumeral_of_pos hpos, List.head?_map, List.head?_reverse] at hhead
    obtain ⟨d, hlast, hzero⟩ := Option.map_eq_some_iff.1 hhead
    have hlt : d < 10 := Nat.digits_lt_base (by decide) (List.mem_of_getLast? hlast)
    have hd : d = 0 := by
      have hbyte := toNat_asciiDigit hlt
      rw [hzero] at hbyte
      change 0x30 = 0x30 + d at hbyte
      omega
    obtain ⟨hne, hget⟩ := List.mem_getLast?_eq_getLast hlast
    exact Nat.getLast_digit_ne_zero 10 (by omega : v.natAbs ≠ 0) (hget.symm.trans hd)

/-- Settles O11: without the sign the numeral of `v` is that of `|v|`, whose digits are those of a natural number. -/
theorem numeralIsCanonical : Obligations.NumeralIsCanonical := by
  intro v
  obtain hneg | hnonneg := lt_or_ge v 0
  · have habs : 0 ≤ -v := by omega
    have hdigits := digitString_decimalNumeral habs
    have hvalue := digitsValue_decimalNumeral habs
    have heq := decimalNumeral_of_neg hneg
    exact ⟨⟨_, hdigits, .inr heq⟩, _, hdigits, by omega, decimalNumeral_of_head_zero habs, .inr ⟨hneg, heq⟩⟩
  · have hdigits := digitString_decimalNumeral hnonneg
    have hvalue := digitsValue_decimalNumeral hnonneg
    exact ⟨⟨_, hdigits, .inl rfl⟩, _, hdigits, by omega, decimalNumeral_of_head_zero hnonneg, .inl ⟨hnonneg, rfl⟩⟩

namespace Machine

/-! ### The integer loader -/

theorem exec_fromint (i : BitVec 32) (s : State) :
    exec (.fromint i) s = .next (s.respond (.wide (fromInteger Config.SIZE i))) := rfl

/-- The low limbs hold the 32-bit pattern: `i` and its unsigned reading differ by a multiple of `2^32` (R63). -/
theorem l_fromInteger_low (i : BitVec 32) {k : Nat} (hk : k < 4) :
    (fromInteger Config.SIZE i).l k = i.extractLsb' (8 * k) 8 := by
  apply BitVec.eq_of_toNat_eq
  have hlimb := Limbs.l_toNat_eq_V (fromInteger Config.SIZE i) (lt_of_lt_of_le hk Config.four_le_SIZE)
  have hi := i.isLt
  rw [WideInt.V_fromInteger, BitVec.toInt_eq_toNat_cond] at hlimb
  rw [BitVec.extractLsb'_toNat, Nat.shiftRight_eq_div_pow]
  interval_cases k <;> split at hlimb <;> omega

/-- The limbs above the pattern repeat the sign: `i / 256^k` is -1 or 0 there (R63). -/
theorem l_fromInteger_high (i : BitVec 32) {k : Nat} (h4 : 4 ≤ k) (hk : k < Config.SIZE) :
    (fromInteger Config.SIZE i).l k = if i.toInt < 0 then 0xFF else 0x00 := by
  apply BitVec.eq_of_toNat_eq
  have hlimb := Limbs.l_toNat_eq_V (fromInteger Config.SIZE i) hk
  have hpow : (256 : Int) ^ 4 ≤ 256 ^ k := pow_le_pow_right₀ (by decide) h4
  have hrange := intValue_range i
  rw [intValue_eq] at hrange
  rw [WideInt.V_fromInteger] at hlimb
  split_ifs with hneg
  · rw [Int.ediv_eq_neg_one_of_neg_of_le hneg (by omega)] at hlimb
    exact Int.ofNat.inj hlimb
  · rw [Int.ediv_eq_zero_of_lt (by omega) (by omega)] at hlimb
    exact Int.ofNat.inj hlimb

/-- Settles O6: the value of the loader, and the limbs that this value has below and above the pattern. -/
theorem fromintSignExtends : Obligations.FromintSignExtends := by
  intro i s
  have hV := WideInt.V_fromInteger i
  refine ⟨fromInteger Config.SIZE i, exec_fromint i s, hV, ?_, fun _ => l_fromInteger_low i,
    fun _ => l_fromInteger_high i⟩
  rw [← hV, WideInt.V_emod]

/-! ### Parsing -/

/-- An unsigned numeral is read modulo the width (R68). -/
theorem exec_fromdec_digits {ds : List Byte} (h : DigitString ds) (s : State) :
    exec (.fromdec ds) s = .next (s.respond (.wide (Limbs.ofInt Config.SIZE (digitsValue ds)))) := by
  have hvalue : ds.foldl accumulate WideInt.ZERO = Limbs.ofInt Config.SIZE (digitsValue ds) := by
    apply Limbs.U_injective
    rw [WideInt.U_parseDigits, Limbs.ofInt_natCast, Limbs.U_wide, Config.MODULUS_eq]
  simp only [exec, execFromdec, WideInt.fromDecimal_digits h, hvalue]

/-- A signed numeral is read as the negative number modulo the width (R68). -/
theorem exec_fromdec_minus {ds : List Byte} (h : DigitString ds) (s : State) :
    exec (.fromdec (0x2D :: ds)) s = .next (s.respond (.wide (Limbs.ofInt Config.SIZE (-(digitsValue ds : Int))))) := by
  have hvalue : negate (ds.foldl accumulate WideInt.ZERO) = Limbs.ofInt Config.SIZE (-(digitsValue ds : Int)) := by
    apply Limbs.U_injective
    zify
    rw [WideInt.U_negate_emod, ← neg_emod_emod, WideInt.V_emod, WideInt.U_parseDigits, WideInt.U_ofInt,
      Int.natCast_emod, neg_emod_emod]
  simp only [exec, execFromdec, WideInt.fromDecimal_minus h, hvalue]

theorem exec_fromdec_malformed {t : List Byte} (h : ¬WellFormedNumeral t) (s : State) :
    exec (.fromdec t) s = .next (s.raise .invalidFormat) := by
  simp only [exec, execFromdec, fromDecimal_eq_none h]

theorem exec_fromdec_wellFormed {t : List Byte} (h : WellFormedNumeral t) (s : State) :
    ∃ r : WideInt, exec (.fromdec t) s = .next (s.respond (.wide r)) := by
  obtain ⟨ds, hdigits, rfl | rfl⟩ := h
  · exact ⟨_, exec_fromdec_digits hdigits s⟩
  · exact ⟨_, exec_fromdec_minus hdigits s⟩

/-- A payload and an error are different responses (R45). -/
theorem respond_ne_raise (s : State) (x : Payload) (e : ErrorCode) : s.respond x ≠ s.raise e := fun h =>
  nomatch congrArg State.resp h

/-- Settles O7: the numeral is read as `ofInt` of its integer, which has that reading modulo the width. -/
theorem fromdecGivesNumeralModuloWidth : Obligations.FromdecGivesNumeralModuloWidth := by
  intro ds s h
  have hhalf := small_le_HALF
  have hMIN := WideInt.MIN_eq
  have hMAX := WideInt.MAX_eq
  refine ⟨⟨_, exec_fromdec_digits h s, ?_, fun hhi => WideInt.V_ofInt (by omega) hhi⟩,
    ⟨_, exec_fromdec_minus h s, WideInt.U_ofInt _, fun hlo => WideInt.V_ofInt hlo (by omega), fun hzero => ?_,
      fun hmin => ?_⟩⟩
  · rw [Limbs.ofInt_natCast, Limbs.U_wide, Config.MODULUS_eq]
  · rw [hzero]
    exact WideInt.ofInt_zero
  · rw [hmin]
    exact WideInt.ofInt_MIN

/-- Settles O8: a malformed text raises an error instead, and a leading zero does not change the digits' number. -/
theorem fromdecAcceptsExactlyNumerals : Obligations.FromdecAcceptsExactlyNumerals := by
  refine ⟨fun t s => ⟨?_, fun h => exec_fromdec_wellFormed h s⟩, fun ds s h => ⟨?_, ?_⟩, fun s => ⟨?_, ?_, ?_⟩⟩
  · rintro ⟨r, hr⟩
    by_contra hmalformed
    rw [exec_fromdec_malformed hmalformed] at hr
    exact respond_ne_raise s _ _ (Host.Outcome.next.inj hr).symm
  · rw [exec_fromdec_digits h, exec_fromdec_digits (digitString_cons_zero h), digitsValue_cons_zero]
  · rw [exec_fromdec_minus h, exec_fromdec_minus (digitString_cons_zero h), digitsValue_cons_zero]
  · rw [exec_fromdec_digits ⟨by decide, by decide⟩, Limbs.ofInt_natCast]
    rfl
  · have hvalue : -(digitsValue [0x30] : Int) = 0 := rfl
    rw [exec_fromdec_minus ⟨by decide, by decide⟩, hvalue, WideInt.ofInt_zero]
  · rw [exec_fromdec_digits ⟨by decide, by decide⟩, Limbs.ofInt_natCast]
    rfl

/-- Settles O9: the rejected texts are the complement of the accepted ones, and these are the three kinds of R66. -/
theorem fromdecRejectsExactlyMalformed : Obligations.FromdecRejectsExactlyMalformed := by
  intro t s
  rw [← not_wellFormedNumeral_iff]
  refine ⟨fun hraise hwell => ?_, fun h => exec_fromdec_malformed h s⟩
  obtain ⟨r, hr⟩ := exec_fromdec_wellFormed hwell s
  rw [hr] at hraise
  exact respond_ne_raise s _ _ (Host.Outcome.next.inj hraise)

/-! ### Formatting, and the round trip -/

theorem exec_todec (a : WideInt) (s : State) : exec (.todec a) s = .next (s.respond (.text (decimalNumeral a.V))) := by
  rw [← WideInt.toDecimal_eq]
  rfl

/-- FROMDEC reads the ordinary numeral of any integer as that integer modulo the width. -/
theorem exec_fromdec_decimalNumeral (v : Int) (s : State) :
    exec (.fromdec (decimalNumeral v)) s = .next (s.respond (.wide (Limbs.ofInt Config.SIZE v))) := by
  obtain hneg | hnonneg := lt_or_ge v 0
  · have habs : 0 ≤ -v := by omega
    rw [decimalNumeral_of_neg hneg, exec_fromdec_minus (digitString_decimalNumeral habs),
      digitsValue_decimalNumeral habs, neg_neg]
  · rw [exec_fromdec_digits (digitString_decimalNumeral hnonneg), digitsValue_decimalNumeral hnonneg]

/-- TODEC of the value read from an integer in range writes the integer's numeral. -/
theorem exec_todec_ofInt {v : Int} (hlo : Config.MIN ≤ v) (hhi : v ≤ Config.MAX) (s : State) :
    exec (.todec (Limbs.ofInt Config.SIZE v)) s = .next (s.respond (.text (decimalNumeral v))) := by
  rw [exec_todec, WideInt.V_ofInt hlo hhi]

/-- Settles O10: the text of `a` is the numeral of `a.V`, whose length is bounded by the range and which is read as `a.V`
again; a numeral in range is read as the value whose text is the canonical one. -/
theorem decimalTextRoundTrip : Obligations.DecimalTextRoundTrip := by
  have hhalf := small_le_HALF
  have hMIN := WideInt.MIN_eq
  have hMAX := WideInt.MAX_eq
  refine ⟨fun a s => ?_, fun ds s h => ⟨fun hhi => ?_, fun hlo => ?_⟩⟩
  · obtain ⟨hlo, hhi⟩ := WideInt.V_range a
    refine ⟨exec_todec a s, length_decimalNumeral_pos a.V, length_decimalNumeral_le hlo hhi, ?_⟩
    rw [exec_fromdec_decimalNumeral, WideInt.ofInt_V]
  · exact ⟨_, exec_fromdec_digits h s, exec_todec_ofInt (by omega) hhi s⟩
  · exact ⟨_, exec_fromdec_minus h s, exec_todec_ofInt hlo (by omega) s⟩

end Machine

end Sys2Proof

/-! The wide adder (42_additive.md): the signed sum by its three cases (R77), addition as a commutative group with `negate`
as the inverse (R78), the two ends of the range (R76, R79), and the overflow test of the host (R80). -/

namespace Sys2Proof.Machine

/-! ### The three requests -/

theorem exec_add (a b : WideInt) (s : State) : exec (.add a b) s = .next (s.respond (.wide (add a b))) := rfl

theorem exec_sub (a b : WideInt) (s : State) : exec (.sub a b) s = .next (s.respond (.wide (subtract a b))) := rfl

theorem exec_mul (a b : WideInt) (s : State) : exec (.mul a b) s = .next (s.respond (.wide (multiply a b))) := rfl

/-! ### The signed sum and difference -/

theorem V_add_of_mem {a b : WideInt} (hlo : Config.MIN ≤ a.V + b.V) (hhi : a.V + b.V ≤ Config.MAX) :
    (add a b).V = a.V + b.V :=
  WideInt.V_eq_of_emod _ hlo hhi (WideInt.U_add_emod a b)

/-- Above the range one modulus is lost: the sum of two values is below `MAX + 2^W` (R77). -/
theorem V_add_of_max_lt {a b : WideInt} (h : Config.MAX < a.V + b.V) :
    (add a b).V = a.V + b.V - (Config.MODULUS : Int) := by
  obtain ⟨-, ha⟩ := WideInt.V_range a
  obtain ⟨-, hb⟩ := WideInt.V_range b
  have hMIN := WideInt.MIN_eq
  have hMAX := WideInt.MAX_eq
  have hhalf := MODULUS_eq_HALF
  refine WideInt.V_eq_of_emod _ (by omega) (by omega) ?_
  rw [WideInt.U_add_emod, Int.sub_emod_right]

/-- Below the range one modulus is gained (R77). -/
theorem V_add_of_lt_min {a b : WideInt} (h : a.V + b.V < Config.MIN) :
    (add a b).V = a.V + b.V + (Config.MODULUS : Int) := by
  obtain ⟨ha, -⟩ := WideInt.V_range a
  obtain ⟨hb, -⟩ := WideInt.V_range b
  have hMIN := WideInt.MIN_eq
  have hMAX := WideInt.MAX_eq
  have hhalf := MODULUS_eq_HALF
  refine WideInt.V_eq_of_emod _ (by omega) (by omega) ?_
  rw [WideInt.U_add_emod, Int.add_emod_right]

theorem V_subtract_of_mem {a b : WideInt} (hlo : Config.MIN ≤ a.V - b.V) (hhi : a.V - b.V ≤ Config.MAX) :
    (subtract a b).V = a.V - b.V :=
  WideInt.V_eq_of_emod _ hlo hhi (WideInt.U_subtract_emod a b)

/-- The difference of the unsigned readings, the adder's own closed form of `subtract` (R77). -/
theorem U_subtract_emod_U (a b : WideInt) :
    ((subtract a b).U : Int) = ((a.U : Int) - b.U) % (Config.MODULUS : Int) := by
  rw [WideInt.U_subtract_emod, Int.sub_emod, WideInt.V_emod, WideInt.V_emod]

/-- Settles O13: the results are `add a b` and `subtract a b`; their unsigned readings are the closed forms, which the
signed readings are congruent to, and the signed sum has a lemma for each of its three cases. -/
theorem addSubWrapModuloWidth : Obligations.AddSubWrapModuloWidth := by
  refine fun a b s => ⟨⟨add a b, exec_add a b s, WideInt.U_add a b, ?_⟩,
    ⟨subtract a b, exec_sub a b s, U_subtract_emod_U a b, ?_⟩⟩
  · obtain ⟨hlo, hhi⟩ := WideInt.V_range (add a b)
    have hcongruent := (WideInt.V_emod _).trans (WideInt.U_add_emod a b)
    exact ⟨hlo, hhi, hcongruent, V_add_of_mem, V_add_of_max_lt, V_add_of_lt_min⟩
  · obtain ⟨hlo, hhi⟩ := WideInt.V_range (subtract a b)
    exact ⟨hlo, hhi, (WideInt.V_emod _).trans (WideInt.U_subtract_emod a b)⟩

/-! ### The group laws, for any number of limbs -/

section Group

variable {n : Nat}

protected theorem add_comm (a b : Limbs n) : add a b = add b a := by
  rw [← Limbs.U_inj, U_add, U_add, Nat.add_comm]

protected theorem add_assoc (a b c : Limbs n) : add (add a b) c = add a (add b c) := by
  simp only [← Limbs.U_inj, U_add, Nat.mod_add_mod, Nat.add_mod_mod, Nat.add_assoc]

protected theorem add_zero (a : Limbs n) : add a (Limbs.zero n) = a := by
  rw [← Limbs.U_inj, U_add, Limbs.U_zero, Nat.add_zero, Nat.mod_eq_of_lt a.U_lt]

theorem add_negate (a : Limbs n) : add a (negate a) = Limbs.zero n := by
  rw [← Limbs.U_inj, U_add, U_negate, Nat.add_mod_mod, Nat.add_sub_cancel' a.U_lt.le, Nat.mod_self, Limbs.U_zero]

theorem add_subtract_cancel (a b : Limbs n) : subtract (add a b) b = a := by
  rw [subtract, Machine.add_assoc, add_negate, Machine.add_zero]

theorem subtract_add_cancel (a b : Limbs n) : add (subtract a b) b = a := by
  rw [subtract, Machine.add_assoc, Machine.add_comm (negate b), add_negate, Machine.add_zero]

theorem subtract_eq_zero_iff {a b : Limbs n} : subtract a b = Limbs.zero n ↔ a = b := by
  constructor
  · intro h
    rw [← subtract_add_cancel a b, h, Machine.add_comm, Machine.add_zero]
  · rintro rfl
    exact add_negate a

/-- Exchanging the operands negates the difference, since both are congruent to `V(a) - V(b)` (R78). -/
theorem negate_subtract (a b : Limbs n) : negate (subtract b a) = subtract a b := by
  have h : ((negate (subtract b a)).U : Int) = (subtract a b).U := by
    rw [U_negate_emod, U_subtract_emod, neg_emod_emod, neg_sub, U_subtract_emod]
  exact Limbs.U_injective (by exact_mod_cast h)

end Group

/-- Settles O14: the group laws at the unit's width, `equals` being equality. -/
theorem additionIsCommutativeGroup : Obligations.AdditionIsCommutativeGroup :=
  ⟨fun a => ⟨add_negate a, Machine.add_zero a⟩,
    fun a b c => ⟨Machine.add_comm a b, Machine.add_assoc a b c⟩,
    fun a b => ⟨subtract_eq_zero_iff.trans (equals_iff a b).symm, (negate_subtract a b).symm⟩⟩

/-! ### The ends of the range -/

theorem subtract_MIN (a : WideInt) : subtract a WideInt.MIN = add a WideInt.MIN := by rw [subtract, negate_MIN]

/-- A negative value minus `MIN` is in range; any other value plus `MIN`, which is the same result, is (R76). -/
theorem V_subtract_MIN (a : WideInt) :
    (subtract a WideInt.MIN).V = if a.V < 0 then a.V + (Config.HALF : Int) else a.V - (Config.HALF : Int) := by
  obtain ⟨hlo, hhi⟩ := WideInt.V_range a
  have hVMIN := WideInt.V_MIN
  have hMIN := WideInt.MIN_eq
  have hMAX := WideInt.MAX_eq
  split
  · rw [V_subtract_of_mem (by omega) (by omega)]
    omega
  · rw [subtract_MIN, V_add_of_mem (by omega) (by omega)]
    omega

theorem subtract_ZERO_MIN : subtract WideInt.ZERO WideInt.MIN = WideInt.MIN := by
  rw [subtract_MIN, Machine.add_comm]
  exact Machine.add_zero WideInt.MIN

/-- Settles O16: `MIN` is its own negation, so subtracting it is adding it; the value is by the sign of the minuend. -/
theorem subtractingMin : Obligations.SubtractingMin := by
  refine ⟨fun a s => ⟨?_, subtract a WideInt.MIN, exec_sub a WideInt.MIN s, V_subtract_MIN a⟩, fun s => ?_⟩
  · rw [exec_sub, exec_add, subtract_MIN]
  · rw [exec_sub, subtract_ZERO_MIN]

theorem add_MAX_ONE : add WideInt.MAX WideInt.ONE = WideInt.MIN := by
  have hhalf := MODULUS_eq_HALF
  have hpos := small_le_HALF
  rw [← Limbs.U_inj, WideInt.U_add, WideInt.U_MAX, WideInt.U_ONE, WideInt.U_MIN, Nat.mod_eq_of_lt (by omega)]
  omega

theorem subtract_MIN_ONE : subtract WideInt.MIN WideInt.ONE = WideInt.MAX := by
  rw [← add_MAX_ONE, add_subtract_cancel]

/-- Settles O15: the unsigned sum of `MAX` and 1 is that of `MIN`, and subtracting 1 again cancels. -/
theorem rangeEndsWrap : Obligations.RangeEndsWrap := by
  refine fun s => ⟨?_, ?_⟩
  · rw [exec_add, add_MAX_ONE]
  · rw [exec_sub, subtract_MIN_ONE]

/-! ### Overflow -/

theorem sign_eq_iff (a b : WideInt) : a.sign = b.sign ↔ (a.V < 0 ↔ b.V < 0) := by
  rw [Bool.eq_iff_iff, WideInt.sign_iff, WideInt.sign_iff]

/-- The signs tell the overflow (R80): a sum in range with agreeing operands keeps their sign, and a sum outside it has
agreeing operands and comes back by one modulus with the other sign. -/
theorem sign_add_ne_iff (a b : WideInt) : (a.sign = b.sign ∧ (add a b).sign ≠ a.sign) ↔
    ¬(Config.MIN ≤ a.V + b.V ∧ a.V + b.V ≤ Config.MAX) := by
  obtain ⟨halo, hahi⟩ := WideInt.V_range a
  obtain ⟨hblo, hbhi⟩ := WideInt.V_range b
  have hMIN := WideInt.MIN_eq
  have hMAX := WideInt.MAX_eq
  have hhalf := MODULUS_eq_HALF
  rw [ne_eq, sign_eq_iff, sign_eq_iff]
  obtain hlow | hlo := lt_or_ge (a.V + b.V) Config.MIN
  · rw [V_add_of_lt_min hlow]
    omega
  obtain hhigh | hhi := lt_or_ge Config.MAX (a.V + b.V)
  · rw [V_add_of_max_lt hhigh]
    omega
  · rw [V_add_of_mem hlo hhi]
    omega

theorem addOverflows_iff (a b : WideInt) : addOverflows a b = true ↔
    ¬(Config.MIN ≤ a.V + b.V ∧ a.V + b.V ≤ Config.MAX) := by
  rw [← sign_add_ne_iff, addOverflows, Bool.and_eq_true, beq_iff_eq, bne_iff_ne]

/-- Settles O17: each of the three responses is OK with the result; the overflow of the addition is read from the signs. -/
theorem overflowIsNeverSignalled : Obligations.OverflowIsNeverSignalled := fun a b s =>
  ⟨⟨add a b, exec_add a b s, rfl, sign_add_ne_iff a b, addOverflows_iff a b⟩,
    ⟨subtract a b, exec_sub a b s, rfl⟩, ⟨multiply a b, exec_mul a b s, rfl⟩⟩

end Sys2Proof.Machine

/-! The multiplier and the divider (43_multiplicative.md): the product modulo the width (R82, R94), the Euclidean core (R84),
truncating division with its sign table (R91), the zero divisor (R90), `MIN` as an operand (R92) and the laws of R93. -/

namespace Sys2Proof.Machine

/-! ### The ring laws of the multiplier, for any number of limbs -/

section Ring

variable {n : Nat}

protected theorem multiply_comm (a b : Limbs n) : multiply a b = multiply b a := by
  rw [← Limbs.U_inj, U_multiply, U_multiply, Nat.mul_comm]

protected theorem multiply_assoc (a b c : Limbs n) : multiply (multiply a b) c = multiply a (multiply b c) := by
  simp only [← Limbs.U_inj, U_multiply, Nat.mod_mul_mod, Nat.mul_mod_mod, Nat.mul_assoc]

protected theorem multiply_add (a b c : Limbs n) : multiply a (add b c) = add (multiply a b) (multiply a c) := by
  simp only [← Limbs.U_inj, U_multiply, U_add, Nat.mul_mod_mod, Nat.mod_add_mod, Nat.add_mod_mod, Nat.mul_add]

protected theorem multiply_zero (a : Limbs n) : multiply a (Limbs.zero n) = Limbs.zero n := by
  rw [← Limbs.U_inj, U_multiply, Limbs.U_zero, Nat.mul_zero, Nat.zero_mod]

protected theorem multiply_one (a : Limbs n) : multiply a (Limbs.one n) = a := by
  rw [← Limbs.U_inj, U_multiply, Limbs.one, Limbs.U_wide, Nat.mul_mod_mod, Nat.mul_one, Nat.mod_eq_of_lt a.U_lt]

/-- The product of two numbers given by their unsigned readings, whether or not they fit the width. -/
theorem multiply_wide (n u v : Nat) : multiply (Limbs.wide n u) (Limbs.wide n v) = Limbs.wide n (u * v) := by
  simp only [← Limbs.U_inj, U_multiply, Limbs.U_wide, Nat.mod_mul_mod, Nat.mul_mod_mod]

end Ring

/-! ### MUL -/

theorem V_multiply_emod (a b : WideInt) :
    (multiply a b).V % (Config.MODULUS : Int) = a.V * b.V % (Config.MODULUS : Int) :=
  (WideInt.V_emod _).trans (WideInt.U_multiply_emod a b)

theorem V_multiply_of_mem {a b : WideInt} (hlo : Config.MIN ≤ a.V * b.V) (hhi : a.V * b.V ≤ Config.MAX) :
    (multiply a b).V = a.V * b.V :=
  WideInt.V_eq_of_emod _ hlo hhi (WideInt.U_multiply_emod a b)

/-- Settles O18: the result is `multiply a b`, whose closed form in either reading fixes its value in `MIN .. MAX`. -/
theorem mulKeepsLowLimbs : Obligations.MulKeepsLowLimbs := by
  intro a b s
  obtain ⟨hlo, hhi⟩ := WideInt.V_range (multiply a b)
  exact ⟨multiply a b, exec_mul a b s, WideInt.U_multiply a b, WideInt.U_multiply_emod a b, hlo, hhi,
    V_multiply_emod a b, V_multiply_of_mem⟩

/-! ### Corner cases of MUL -/

/-- `-1` as an operand (R82, R92). -/
abbrev minusOne : WideInt := Limbs.ofInt Config.SIZE (-1)

theorem V_minusOne : minusOne.V = -1 := by
  have hpos := small_le_HALF
  have hMIN := WideInt.MIN_eq
  have hMAX := WideInt.MAX_eq
  exact WideInt.V_ofInt (by omega) (by omega)

theorem multiply_minusOne (a : WideInt) : multiply a minusOne = negate a := by
  have h : ((multiply a minusOne).U : Int) = (negate a).U := by
    rw [WideInt.U_multiply_emod, WideInt.U_negate_emod, V_minusOne, mul_neg_one]
  exact Limbs.U_injective (by exact_mod_cast h)

/-- The parity of a value is that of its unsigned reading, since the modulus is even. -/
theorem V_emod_two (a : WideInt) : a.V % 2 = (a.U : Int) % 2 := by
  have hdvd : (2 : Int) ∣ (Config.MODULUS : Int) := by exact_mod_cast Dvd.intro _ MODULUS_eq_HALF.symm
  rw [← WideInt.V_emod, Int.emod_emod_of_dvd _ hdvd]

/-- `2^(W-1)` times a number keeps of that number only its lowest bit, as the new top bit (R82). -/
theorem multiply_MIN (a : WideInt) :
    multiply WideInt.MIN a = if a.V % 2 = 0 then WideInt.ZERO else WideInt.MIN := by
  have hU : (multiply WideInt.MIN a).U = Config.HALF * (a.U % 2) := by
    rw [WideInt.U_multiply, WideInt.U_MIN, MODULUS_eq_HALF, Nat.mul_comm 2, Nat.mul_mod_mul_left]
  have hparity := V_emod_two a
  split
  · rw [← Limbs.U_inj, hU, WideInt.U_ZERO, show a.U % 2 = 0 by omega, Nat.mul_zero]
  · rw [← Limbs.U_inj, hU, WideInt.U_MIN, show a.U % 2 = 1 by omega, Nat.mul_one]

/-- Half the modulus as the top limb 128 above zero limbs. -/
theorem HALF_eq_limb : Config.HALF = 128 * 256 ^ (Config.SIZE - 1) := by
  rw [Config.HALF_eq, ← Limbs.two_pow_eight_mul, show 8 * Config.SIZE - 1 = 7 + 8 * (Config.SIZE - 1) by decide, pow_add,
    show 2 ^ 7 = 128 from rfl]

theorem two_dvd_HALF : 2 ∣ Config.HALF := by
  rw [HALF_eq_limb]
  exact Dvd.dvd.mul_right (by decide) _

theorem multiply_MIN_MIN : multiply WideInt.MIN WideInt.MIN = WideInt.ZERO := by
  have heven : WideInt.MIN.V % 2 = 0 := by
    have hdvd := two_dvd_HALF
    rw [WideInt.V_MIN, WideInt.MIN_eq]
    omega
  rw [multiply_MIN, if_pos heven]

/-- `(2k-1)^2 = 1 + 4k(k-1)`, where `4k` is the modulus (R82). -/
theorem multiply_MAX_MAX : multiply WideInt.MAX WideInt.MAX = WideInt.ONE := by
  obtain ⟨k, hk⟩ := two_dvd_HALF
  obtain ⟨j, rfl⟩ : ∃ j, k = j + 1 := ⟨k - 1, by have := small_le_HALF; omega⟩
  have hmodulus := MODULUS_eq_HALF
  have hsquare : (Config.HALF - 1) * (Config.HALF - 1) = 1 + Config.MODULUS * j := by
    rw [hmodulus, hk, show 2 * (j + 1) - 1 = 2 * j + 1 by omega]
    ring
  rw [← Limbs.U_inj, WideInt.U_multiply, WideInt.U_MAX, WideInt.U_ONE, hsquare, Nat.add_mul_mod_self_left,
    Nat.mod_eq_of_lt (by omega)]

/-- A product of two powers of two has no bit below the width when their exponents add up to it. -/
theorem multiply_two_pow {j k : Nat} (h : j + k = Config.W) :
    multiply (Limbs.wide Config.SIZE (2 ^ j)) (Limbs.wide Config.SIZE (2 ^ k)) = WideInt.ZERO := by
  rw [multiply_wide, ← pow_add, h, ← Limbs.U_inj, Limbs.U_wide, WideInt.U_ZERO, Config.W, Nat.mod_self]

/-- Settles O19: each corner is a lemma on `multiply`. -/
theorem mulCorners : Obligations.MulCorners := by
  refine ⟨fun a s => ⟨?_, ?_⟩, fun s => ⟨?_, ?_, ?_⟩⟩
  · rw [exec_mul, exec_neg, multiply_minusOne]
  · rw [exec_mul, multiply_MIN]
  · rw [exec_mul, multiply_MIN_MIN]
  · rw [exec_mul, multiply_MAX_MAX]
  · rw [exec_mul, multiply_two_pow (by decide)]

/-! ### The divider core -/

/-- The equations of R84 have one solution, the quotient and the remainder of the natural numbers. -/
theorem udivrem_eq_iff {n : Nat} {x d q r : Limbs n} (hd : 0 < d.U) :
    udivrem x d = (q, r) ↔ x.U = q.U * d.U + r.U ∧ r.U < d.U := by
  obtain ⟨hquot, hrem⟩ := U_udivrem x d hd
  rw [Prod.ext_iff, ← Limbs.U_inj, ← Limbs.U_inj, hquot, hrem, Nat.div_mod_unique hd, Nat.mul_comm d.U,
    Nat.add_comm, eq_comm (b := x.U)]

/-- Settles O20: the pair is the one of the Euclidean equations, hence the quotient and the remainder. -/
theorem dividerCoreIsEuclidean : Obligations.DividerCoreIsEuclidean := by
  intro x d hd
  have hpos := Nat.pos_of_ne_zero hd
  obtain ⟨hquot, hrem⟩ := U_udivrem x d hpos
  exact ⟨fun q r => (udivrem_eq_iff hpos).symm, hquot, hrem, hquot.trans_le (Nat.div_le_self _ _)⟩

/-! ### The requests DIV and REM -/

theorem isZero_iff_V (b : WideInt) : isZero b = true ↔ b.V = 0 := by rw [isZero_iff, Limbs.V_eq_zero]

section Divisor

variable {b : WideInt}

theorem exec_div_of_ne (a : WideInt) (hb : b.V ≠ 0) (s : State) :
    exec (.div a b) s = .next (s.respond (.wide (divide a b))) :=
  if_neg (mt (isZero_iff_V b).1 hb)

theorem exec_rem_of_ne (a : WideInt) (hb : b.V ≠ 0) (s : State) :
    exec (.rem a b) s = .next (s.respond (.wide (remainder a b))) :=
  if_neg (mt (isZero_iff_V b).1 hb)

/-- A request that raises under one condition and responds otherwise raises exactly under it. -/
theorem ite_raise_eq_raise_iff (c : Prop) [Decidable c] (s : State) (x : Payload) (e : ErrorCode) :
    (if c then .next (s.raise e) else .next (s.respond x) : Host.Outcome State Fault Refusal) = .next (s.raise e) ↔
      c := by
  split
  · next h => exact iff_of_true rfl h
  · next h => exact iff_of_false (fun heq => respond_ne_raise s x e (Host.Outcome.next.inj heq)) h

theorem exec_div_eq_raise_iff (a : WideInt) (s : State) :
    exec (.div a b) s = .next (s.raise .divisionByZero) ↔ b.V = 0 :=
  (ite_raise_eq_raise_iff _ s _ _).trans (isZero_iff_V b)

theorem exec_rem_eq_raise_iff (a : WideInt) (s : State) :
    exec (.rem a b) s = .next (s.raise .divisionByZero) ↔ b.V = 0 :=
  (ite_raise_eq_raise_iff _ s _ _).trans (isZero_iff_V b)

end Divisor

/-- Settles O22: the error comes exactly for the divisor of value 0, which is the one whose limbs are all zero. -/
theorem zeroDivisorIsReported : Obligations.ZeroDivisorIsReported := by
  intro a b s
  have hlimbs : b.V = 0 ↔ ∀ i < Config.SIZE, b.l i = 0 := by
    simp only [Limbs.V_eq_zero, Limbs.eq_iff_l, Limbs.l_zero]
  exact ⟨(exec_div_eq_raise_iff a s).trans hlimbs, (exec_rem_eq_raise_iff a s).trans hlimbs⟩

/-! ### The sign table -/

/-- The quotient rounded toward zero, by the signs of the operands (R91). -/
theorem tdiv_eq_natAbs_div (a b : Int) : a.tdiv b =
    if (a < 0 ↔ b < 0) then ((a.natAbs / b.natAbs : Nat) : Int) else -((a.natAbs / b.natAbs : Nat) : Int) := by
  have hnonneg (k : Nat) : ¬Int.ofNat k < 0 := (Int.natCast_nonneg k).not_gt
  match a, b with
  | .ofNat m, .ofNat k => rw [if_pos (iff_of_false (hnonneg m) (hnonneg k))]; rfl
  | .ofNat m, .negSucc k => rw [if_neg (by simp)]; rfl
  | .negSucc m, .ofNat k => rw [if_neg (by simp)]; rfl
  | .negSucc m, .negSucc k => rw [if_pos (by simp)]; rfl

/-- The remainder of that quotient has the sign of the dividend (R91). -/
theorem tmod_eq_natAbs_mod (a b : Int) : a.tmod b =
    if a < 0 then -((a.natAbs % b.natAbs : Nat) : Int) else ((a.natAbs % b.natAbs : Nat) : Int) := by
  match a, b with
  | .ofNat m, .ofNat k => rfl
  | .ofNat m, .negSucc k => rfl
  | .negSucc m, .ofNat k => rw [if_pos (Int.negSucc_lt_zero m)]; rfl
  | .negSucc m, .negSucc k => rw [if_pos (Int.negSucc_lt_zero m)]; rfl

theorem abs_tmod_lt (a : Int) {b : Int} (hb : b ≠ 0) : |a.tmod b| < |b| := by
  rw [Int.abs_eq_natAbs, Int.abs_eq_natAbs, Int.natAbs_tmod]
  exact_mod_cast Nat.mod_lt _ (Int.natAbs_pos.2 hb)

theorem tmod_eq_zero_or_neg_iff (a b : Int) : a.tmod b = 0 ∨ (a.tmod b < 0 ↔ a < 0) := by
  rw [tmod_eq_natAbs_mod]
  split <;> omega

/-- Settles O21: the readings are `tdiv` and `tmod` of the operands' values, and each row of the sign table is the case
of its signs; `MIN` by -1 meets the signs of the last row only. -/
theorem divRemTruncate : Obligations.DivRemTruncate := by
  refine ⟨fun a b s hb => ?_, fun a b s hb => ⟨(exec_div_eq_raise_iff a s).2 hb, (exec_rem_eq_raise_iff a s).2 hb⟩⟩
  have hrem := WideInt.V_remainder a hb
  have hquot : ¬(a.V = Config.MIN ∧ b.V = -1) → (divide a b).V = a.V.tdiv b.V := WideInt.V_divide hb
  have hMIN : Config.MIN < 0 := by
    have := small_le_HALF
    rw [WideInt.MIN_eq]
    omega
  refine ⟨divide a b, remainder a b, exec_div_of_ne a hb s, exec_rem_of_ne a hb s, WideInt.U_divide a hb, ?_, hquot,
    ?_, ?_, fun ha hpos => ⟨?_, ?_⟩, fun ha hneg => ⟨?_, ?_⟩, fun ha hpos => ⟨?_, ?_⟩, fun ha hneg hne => ?_,
    fun ha _ => ?_⟩
  · rw [hrem, Int.tmod_def]
  · rw [hrem]
    exact abs_tmod_lt _ hb
  · rw [hrem]
    exact tmod_eq_zero_or_neg_iff _ _
  · rw [hquot (by omega), tdiv_eq_natAbs_div, if_pos (by omega)]
  · rw [hrem, tmod_eq_natAbs_mod, if_neg (by omega)]
  · rw [hquot (by omega), tdiv_eq_natAbs_div, if_neg (by omega)]
  · rw [hrem, tmod_eq_natAbs_mod, if_neg (by omega)]
  · rw [hquot (by omega), tdiv_eq_natAbs_div, if_neg (by omega)]
  · rw [hrem, tmod_eq_natAbs_mod, if_pos ha]
  · rw [hquot hne, tdiv_eq_natAbs_div, if_pos (by omega)]
  · rw [hrem, tmod_eq_natAbs_mod, if_pos ha]

/-! ### Particular divisors -/

/-- A quotient is known from its value modulo the width, the wrapped case included. -/
theorem divide_eq_of_emod {a b q : WideInt} (hb : b.V ≠ 0)
    (h : (q.U : Int) = a.V.tdiv b.V % (Config.MODULUS : Int)) : divide a b = q := by
  have hU : ((divide a b).U : Int) = q.U := (WideInt.U_divide a hb).trans h.symm
  exact Limbs.U_injective (by exact_mod_cast hU)

theorem divide_eq_of_V {a b q : WideInt} (hb : b.V ≠ 0) (h : q.V = a.V.tdiv b.V) : divide a b = q :=
  divide_eq_of_emod hb (by rw [← h, WideInt.V_emod])

theorem remainder_eq_of_V {a b r : WideInt} (hb : b.V ≠ 0) (h : r.V = a.V.tmod b.V) : remainder a b = r :=
  Limbs.V_injective ((WideInt.V_remainder a hb).trans h.symm)

theorem V_ONE_ne_zero : WideInt.ONE.V ≠ 0 := by rw [WideInt.V_ONE]; decide

theorem V_minusOne_ne_zero : minusOne.V ≠ 0 := by rw [V_minusOne]; decide

theorem V_MIN_ne_zero : WideInt.MIN.V ≠ 0 := by
  have hpos := small_le_HALF
  rw [WideInt.V_MIN, WideInt.MIN_eq]
  omega

theorem divide_ONE (a : WideInt) : divide a WideInt.ONE = a :=
  divide_eq_of_V V_ONE_ne_zero (by rw [WideInt.V_ONE, Int.tdiv_one])

theorem remainder_ONE (a : WideInt) : remainder a WideInt.ONE = WideInt.ZERO :=
  remainder_eq_of_V V_ONE_ne_zero (by rw [WideInt.V_ONE, Int.tmod_one, WideInt.V_ZERO])

/-- Dividing by -1 is negation for every dividend: `MIN` wraps in both (R92 (a)). -/
theorem divide_minusOne (a : WideInt) : divide a minusOne = negate a :=
  divide_eq_of_emod V_minusOne_ne_zero
    (by rw [WideInt.U_negate_emod, V_minusOne, Int.tdiv_neg, Int.tdiv_one])

theorem remainder_minusOne (a : WideInt) : remainder a minusOne = WideInt.ZERO :=
  remainder_eq_of_V V_minusOne_ne_zero (by rw [V_minusOne, Int.tmod_neg, Int.tmod_one, WideInt.V_ZERO])

theorem divide_self {b : WideInt} (hb : b.V ≠ 0) : divide b b = WideInt.ONE :=
  divide_eq_of_V hb (by rw [Int.tdiv_self hb, WideInt.V_ONE])

theorem remainder_self {b : WideInt} (hb : b.V ≠ 0) : remainder b b = WideInt.ZERO :=
  remainder_eq_of_V hb (by rw [Int.tmod_self, WideInt.V_ZERO])

section SmallerDividend

variable {a b : WideInt} (h : a.V.natAbs < b.V.natAbs)

include h

theorem divide_of_natAbs_lt : divide a b = WideInt.ZERO := by
  refine divide_eq_of_V (by omega) ?_
  rw [WideInt.V_ZERO, tdiv_eq_natAbs_div, Nat.div_eq_of_lt h]
  split <;> rfl

theorem remainder_of_natAbs_lt : remainder a b = a := by
  refine remainder_eq_of_V (by omega) ?_
  rw [tmod_eq_natAbs_mod, Nat.mod_eq_of_lt h]
  omega

end SmallerDividend

/-- `MIN` alone has the magnitude `2^(W-1)` (R92 (d)). -/
theorem natAbs_lt_natAbs_MIN {a : WideInt} (h : a ≠ WideInt.MIN) : a.V.natAbs < WideInt.MIN.V.natAbs := by
  obtain ⟨hlo, hhi⟩ := WideInt.V_range a
  have hne : a.V ≠ Config.MIN := by rwa [← WideInt.V_MIN, ne_eq, Limbs.V_inj]
  have hMIN := WideInt.MIN_eq
  have hMAX := WideInt.MAX_eq
  rw [WideInt.V_MIN]
  omega

/-- A multiple of `256^m` has zero limbs below limb `m`, and there the low byte of the factor. -/
theorem l_of_V_eq_mul {x : WideInt} {c : Int} {m : Nat} (h : x.V = c * 256 ^ m) (hm : m < Config.SIZE) :
    ((x.l m).toNat : Int) = c % 256 ∧ ∀ i < m, x.l i = 0 := by
  refine ⟨?_, fun i hi => BitVec.eq_of_toNat_eq ?_⟩
  · rw [Limbs.l_toNat_eq_V x hm, h, Int.mul_ediv_cancel _ (by positivity)]
  · obtain ⟨j, rfl⟩ : ∃ j, m = j + 1 + i := ⟨m - i - 1, by omega⟩
    have hlimb := Limbs.l_toNat_eq_V x (hi.trans hm)
    rw [h, pow_add, ← mul_assoc, Int.mul_ediv_cancel _ (by positivity), pow_succ, ← mul_assoc,
      Int.mul_emod_left] at hlimb
    exact_mod_cast hlimb

theorem V_two : (Limbs.wide Config.SIZE 2 : WideInt).V = 2 := by
  have hpos := small_le_HALF
  have hmodulus := MODULUS_eq_HALF
  have hU : (Limbs.wide Config.SIZE 2 : WideInt).U = 2 := WideInt.U_wide (by omega)
  rw [WideInt.V_of_U_small (by omega), hU]
  rfl

/-- The quotient of `MIN` by 2 is `-64 * 256^253` (R92 (e)). -/
theorem V_divide_MIN_two : (divide WideInt.MIN (Limbs.wide Config.SIZE 2)).V = -64 * 256 ^ (Config.SIZE - 1) := by
  have hMIN : Config.MIN = -64 * 256 ^ (Config.SIZE - 1) * 2 := by
    rw [WideInt.MIN_eq, HALF_eq_limb]
    push_cast
    ring
  rw [WideInt.V_divide (by rw [V_two]; decide) (by rw [V_two]; omega), WideInt.V_MIN, V_two, hMIN,
    Int.mul_tdiv_cancel _ (by decide)]

/-- Settles O23: cases (a) to (c) are the divisors -1, 1 and the dividend itself, (d) the smaller dividend, and (e) is read
off the value of the quotient. -/
theorem minimumValueDivision : Obligations.MinimumValueDivision := by
  refine ⟨fun s => ⟨?_, ?_, ?_, ?_, ?_, ?_⟩, fun a s ha => ⟨?_, ?_⟩, fun s => ?_⟩
  · rw [exec_div_of_ne _ V_minusOne_ne_zero, divide_minusOne, negate_MIN]
  · rw [exec_rem_of_ne _ V_minusOne_ne_zero, remainder_minusOne]
  · rw [exec_div_of_ne _ V_ONE_ne_zero, divide_ONE]
  · rw [exec_rem_of_ne _ V_ONE_ne_zero, remainder_ONE]
  · rw [exec_div_of_ne _ V_MIN_ne_zero, divide_self V_MIN_ne_zero]
  · rw [exec_rem_of_ne _ V_MIN_ne_zero, remainder_self V_MIN_ne_zero]
  · rw [exec_div_of_ne _ V_MIN_ne_zero, divide_of_natAbs_lt (natAbs_lt_natAbs_MIN ha)]
  · rw [exec_rem_of_ne _ V_MIN_ne_zero, remainder_of_natAbs_lt (natAbs_lt_natAbs_MIN ha)]
  · obtain ⟨htop, hlow⟩ := l_of_V_eq_mul V_divide_MIN_two (Nat.sub_one_lt SIZE_pos.ne')
    rw [show (-64 : Int) % 256 = ((0xC0 : Byte).toNat : Int) from rfl, Int.natCast_inj] at htop
    refine ⟨_, exec_div_of_ne _ (by rw [V_two]; decide) s, ?_, BitVec.eq_of_toNat_eq htop, hlow⟩
    rw [V_divide_MIN_two, WideInt.MIN_eq, HALF_eq_limb]
    push_cast
    ring

/-! ### The division identity -/

/-- The identity of the truncated quotient survives the width: every block is exact modulo `2^W` (R93). -/
theorem add_multiply_divide_remainder (a : WideInt) {b : WideInt} (hb : b.V ≠ 0) :
    add (multiply (divide a b) b) (remainder a b) = a := by
  have hquot : (divide a b).V ≡ a.V.tdiv b.V [ZMOD Config.MODULUS] :=
    (WideInt.V_emod _).trans (WideInt.U_divide a hb)
  have hprod : (multiply (divide a b) b).V ≡ (divide a b).V * b.V [ZMOD Config.MODULUS] := V_multiply_emod _ _
  have hsum : (add (multiply (divide a b) b) (remainder a b)).V ≡
      (multiply (divide a b) b).V + (remainder a b).V [ZMOD Config.MODULUS] :=
    (WideInt.V_emod _).trans (WideInt.U_add_emod _ _)
  apply WideInt.eq_of_emod
  calc (add (multiply (divide a b) b) (remainder a b)).V
      ≡ (multiply (divide a b) b).V + (remainder a b).V [ZMOD Config.MODULUS] := hsum
    _ ≡ a.V.tdiv b.V * b.V + (remainder a b).V [ZMOD Config.MODULUS] :=
        (hprod.trans (hquot.mul_right b.V)).add_right _
    _ = a.V := by rw [WideInt.V_remainder a hb, Int.tdiv_mul_add_tmod]

/-- Settles O24: the ring laws at the unit's width, and the identity for every divisor but zero. -/
theorem divisionIdentity : Obligations.DivisionIdentity := by
  refine ⟨fun a => ⟨Machine.multiply_zero a, Machine.multiply_one a⟩, fun a b hb => ?_,
    fun a b c => ⟨Machine.multiply_comm a b, Machine.multiply_assoc a b c, Machine.multiply_add a b c⟩⟩
  rw [← Bool.not_eq_true, isZero_iff_V] at hb
  exact add_multiply_divide_remainder a hb

end Sys2Proof.Machine

/-! The comparator: what `equals` and `less_than` decide at the unit's width, and the order they give (44_comparison.md
rules R96 to R105). -/

namespace Sys2Proof.Machine

/-! ### Equality and the zero test -/

/-- `equals` compares limb by limb (R97). -/
theorem equals_iff_l {n : Nat} (a b : Limbs n) : equals a b = true ↔ ∀ i < n, a.l i = b.l i := by
  rw [equals_iff, Limbs.eq_iff_l]

theorem equals_iff_U {n : Nat} (a b : Limbs n) : equals a b = true ↔ a.U = b.U := by
  rw [equals_iff, Limbs.U_inj]

theorem equals_iff_V {n : Nat} (a b : Limbs n) : equals a b = true ↔ a.V = b.V := by
  rw [equals_iff, Limbs.V_inj]

theorem equals_false_iff_V {n : Nat} (a b : Limbs n) : equals a b = false ↔ a.V ≠ b.V := by
  rw [← Bool.not_eq_true, ne_eq, equals_iff_V]

theorem isZero_iff_l {n : Nat} (x : Limbs n) : isZero x = true ↔ ∀ i < n, x.l i = 0x00 := by
  simp only [isZero, equals_iff_l, Limbs.l_zero]

theorem exec_eq (a b : WideInt) (s : State) : exec (.eq a b) s = .next (s.respond (.bool (equals a b))) := rfl

theorem exec_ne (a b : WideInt) (s : State) : exec (.ne a b) s = .next (s.respond (.bool (!equals a b))) := rfl

/-- Settles O25: `is_zero` is by definition `equals` against `ZERO`, and each reading is 0 for `ZERO` alone. -/
theorem zeroTest : Obligations.ZeroTest := fun x =>
  ⟨isZero_iff_l x, isZero_iff x, isZero_iff_U x, isZero_iff_V x, rfl⟩

/-- Settles O26: the payload is `equals`, and each reading determines the limbs. -/
theorem eqNeCompareLimbs : Obligations.EqNeCompareLimbs := fun a b s =>
  ⟨equals a b, exec_eq a b s, exec_ne a b s, equals_iff_l a b, equals_iff_U a b, equals_iff_V a b⟩

/-! ### The order -/

theorem lessThan_iff_V (a b : WideInt) : lessThan a b = true ↔ a.V < b.V := lessThan_iff SIZE_pos a b

theorem lessThan_false_iff_V (a b : WideInt) : lessThan a b = false ↔ b.V ≤ a.V := by
  rw [← Bool.not_eq_true, lessThan_iff_V, not_lt]

theorem not_lessThan_eq (a b : WideInt) : (!lessThan a b) = decide (b.V ≤ a.V) := by
  rw [Bool.eq_iff_iff, Bool.not_eq_true', lessThan_false_iff_V, decide_eq_true_iff]

theorem exec_lt (a b : WideInt) (s : State) : exec (.lt a b) s = .next (s.respond (.bool (lessThan a b))) := rfl

theorem exec_le (a b : WideInt) (s : State) : exec (.le a b) s = .next (s.respond (.bool (!lessThan b a))) := rfl

theorem exec_gt (a b : WideInt) (s : State) : exec (.gt a b) s = .next (s.respond (.bool (lessThan b a))) := rfl

theorem exec_ge (a b : WideInt) (s : State) : exec (.ge a b) s = .next (s.respond (.bool (!lessThan a b))) := rfl

/-- Settles O27: LT and GT are `less_than` either way round, LE and GE the negation of one of them (R100 to R103). -/
theorem orderIsNumeric : Obligations.OrderIsNumeric := by
  refine fun a b s => ⟨lessThan_iff_V a b, ?_, ?_, ?_, ?_⟩
  · rw [exec_lt, WideInt.lessThan_eq]
  · rw [exec_le, not_lessThan_eq]
  · rw [exec_gt, WideInt.lessThan_eq]
  · rw [exec_ge, not_lessThan_eq]

/-- Exactly one of less, equal and greater (R105). -/
theorem lessThan_trichotomy (a b : WideInt) :
    (lessThan a b = true ∧ equals a b = false ∧ lessThan b a = false) ∨
    (lessThan a b = false ∧ equals a b = true ∧ lessThan b a = false) ∨
    (lessThan a b = false ∧ equals a b = false ∧ lessThan b a = true) := by
  simp only [lessThan_iff_V, lessThan_false_iff_V, equals_iff_V, equals_false_iff_V]
  rcases lt_trichotomy a.V b.V with h | h | h
  · exact .inl ⟨h, h.ne, h.le⟩
  · exact .inr (.inl ⟨h.ge, h, h.le⟩)
  · exact .inr (.inr ⟨h.le, h.ne', h⟩)

theorem lessThan_trans {a b c : WideInt} (hab : lessThan a b = true) (hbc : lessThan b c = true) :
    lessThan a c = true := by
  rw [lessThan_iff_V] at hab hbc ⊢
  exact hab.trans hbc

/-- Where neither sum wraps, adding the same number on both sides keeps the order (R105). -/
theorem lessThan_add_right {a b c : WideInt} (halo : Config.MIN ≤ a.V + c.V) (hahi : a.V + c.V ≤ Config.MAX)
    (hblo : Config.MIN ≤ b.V + c.V) (hbhi : b.V + c.V ≤ Config.MAX) (hab : lessThan a b = true) :
    lessThan (add a c) (add b c) = true := by
  rw [lessThan_iff_V] at hab ⊢
  rw [V_add_of_mem halo hahi, V_add_of_mem hblo hbhi]
  exact Int.add_lt_add_right hab c.V

/-- Nothing is above `MAX`; in particular not its wrapped successor. -/
theorem lessThan_MAX_left (x : WideInt) : lessThan WideInt.MAX x = false := by
  obtain ⟨-, hhi⟩ := WideInt.V_range x
  rwa [lessThan_false_iff_V, WideInt.V_MAX]

theorem lessThan_MIN_ONE : lessThan WideInt.MIN WideInt.ONE = true := by
  rw [lessThan_iff_V, WideInt.V_MIN, WideInt.V_ONE, WideInt.MIN_eq]
  omega

/-- Settles O28: the laws of the order of the signed values, and the two places where wraparound breaks monotonicity. -/
theorem orderIsTotal : Obligations.OrderIsTotal :=
  ⟨lessThan_trichotomy, fun _ _ _ => lessThan_trans, fun _ _ _ => lessThan_add_right, lessThan_MAX_left _,
    subtract_MIN_ONE, lessThan_MIN_ONE⟩

end Sys2Proof.Machine

/-! The errors (60_exceptions.md rules R108 to R121): which request reports which, the reserved operation code, the host
that keeps the protocol and the host that does nothing, and the units that share nothing. -/

namespace Sys2Proof.Machine

/-! ### Which request reports which error -/

/-- The rows of R114's table that are errors: the request, its condition and what it reports. `exec_eq_raise_iff` ties
it to the model. -/
inductive Reports : Instr → ErrorCode → Prop where
  | div (a : WideInt) {b : WideInt} (h : isZero b = true) : Reports (.div a b) .divisionByZero
  | rem (a : WideInt) {b : WideInt} (h : isZero b = true) : Reports (.rem a b) .divisionByZero
  | fromdec {t : List Byte} (h : ¬WellFormedNumeral t) : Reports (.fromdec t) .invalidFormat
  | reservedF : Reports .reservedF .illegalOp

theorem reports_divisionByZero_iff {i : Instr} :
    Reports i .divisionByZero ↔ ∃ a b : WideInt, (i = .div a b ∨ i = .rem a b) ∧ isZero b = true := by
  constructor
  · intro h
    cases h with
    | div a hb => exact ⟨a, _, .inl rfl, hb⟩
    | rem a hb => exact ⟨a, _, .inr rfl, hb⟩
  · rintro ⟨a, b, rfl | rfl, hb⟩
    · exact .div a hb
    · exact .rem a hb

theorem reports_invalidFormat_iff {i : Instr} :
    Reports i .invalidFormat ↔ ∃ t : List Byte, i = .fromdec t ∧ ¬WellFormedNumeral t := by
  constructor
  · intro h
    cases h with
    | fromdec ht => exact ⟨_, rfl, ht⟩
  · rintro ⟨t, rfl, ht⟩
    exact .fromdec ht

theorem reports_illegalOp_iff {i : Instr} : Reports i .illegalOp ↔ i = .reservedF := by
  constructor
  · rintro ⟨⟩
    rfl
  · rintro rfl
    exact .reservedF

theorem raise_injective (s : State) : Function.Injective s.raise := fun _ _ h =>
  Response.error.inj (Option.some.inj (congrArg State.resp h))

theorem exec_reservedF (s : State) : exec .reservedF s = .next (s.raise .illegalOp) := rfl

/-- A request that has an error to report ends with it (R110). -/
theorem exec_of_reports {i : Instr} {e : ErrorCode} (h : Reports i e) (s : State) : exec i s = .next (s.raise e) := by
  cases h with
  | div a hb => exact if_pos hb
  | rem a hb => exact if_pos hb
  | fromdec ht => exact exec_fromdec_malformed ht s
  | reservedF => exact exec_reservedF s

/-- A request that has no error to report ends with a payload (R114). -/
theorem exec_of_not_reports {i : Instr} (h : ∀ e, ¬Reports i e) (s : State) :
    ∃ x : Payload, exec i s = .next (s.respond x) := by
  cases i with
  | div a b => exact ⟨_, if_neg fun hb => h _ (.div a hb)⟩
  | rem a b => exact ⟨_, if_neg fun hb => h _ (.rem a hb)⟩
  | fromdec t =>
    obtain ⟨r, hr⟩ := exec_fromdec_wellFormed (not_not.1 fun ht => h _ (.fromdec ht)) s
    exact ⟨.wide r, hr⟩
  | reservedF => exact absurd .reservedF (h _)
  | _ => exact ⟨_, rfl⟩

/-- `Reports` says exactly when `exec` raises which error. -/
theorem exec_eq_raise_iff {i : Instr} {s : State} {e : ErrorCode} : exec i s = .next (s.raise e) ↔ Reports i e := by
  refine ⟨fun hraise => ?_, fun h => exec_of_reports h s⟩
  by_cases h : ∃ e', Reports i e'
  · obtain ⟨e', he'⟩ := h
    rw [exec_of_reports he'] at hraise
    obtain rfl := raise_injective s (Host.Outcome.next.inj hraise)
    exact he'
  · obtain ⟨x, hx⟩ := exec_of_not_reports (not_exists.1 h) s
    rw [hx] at hraise
    exact absurd (Host.Outcome.next.inj hraise) (respond_ne_raise s x e)

/-- A request ends with a payload exactly when it ends with no error: never both (R45), never neither (R22). -/
theorem exec_eq_respond_iff {i : Instr} {s : State} :
    (∃ x : Payload, exec i s = .next (s.respond x)) ↔ ¬∃ e : ErrorCode, exec i s = .next (s.raise e) := by
  constructor
  · rintro ⟨x, hx⟩ ⟨e, he⟩
    exact respond_ne_raise s x e (Host.Outcome.next.inj (hx.symm.trans he))
  · intro hnone
    exact exec_of_not_reports (fun e h => hnone ⟨e, exec_of_reports h s⟩) s

/-- Settles O31: `Reports` is the table, read for each of the three errors. -/
theorem errorTable : Obligations.ErrorTable :=
  ⟨fun _ _ => ⟨exec_eq_raise_iff.trans reports_divisionByZero_iff, exec_eq_raise_iff.trans reports_invalidFormat_iff,
    exec_eq_raise_iff.trans reports_illegalOp_iff, exec_eq_respond_iff⟩, fun _ => rfl, rfl, rfl, rfl⟩

/-! ### The reserved operation code -/

/-- The reserved code has no operands, so a packet that holds it holds the whole request (R40, R42). -/
theorem decode_of_reservedF {p : Packet} (hlength : 4 ≤ p.length) (hcode : p.field 0 4 = 0xF) :
    decode p = .ok .reservedF := by
  have hop : p.op = .reservedF := by
    rw [Packet.op, hcode]
    rfl
  have hcomplete : p.missing = none := by
    rw [missing_eq_none_iff, hop]
    exact hlength
  rw [decode_of_complete hcomplete, hop]
  rfl

/-- Settles O30: the reserved request executes, decodes and is answered as any other. -/
theorem reservedCodeIsIllegalOp : Obligations.ReservedCodeIsIllegalOp :=
  ⟨exec_reservedF, fun _ => decode_of_reservedF, rfl, rfl⟩

/-! ### The host that does nothing, and the host that keeps the protocol -/

theorem step_of_script_nil {s : State} (h : s.script = []) : step s = .next s := by
  obtain ⟨r, script⟩ := s
  obtain rfl : script = [] := h
  rfl

/-- Settles O42: the step is read at the empty list of inputs. -/
theorem idleHostChangesNothing : Obligations.IdleHostChangesNothing := fun _ => step_of_script_nil

/-- Settles O44: by the head input, which a step takes whether its answer is an error or not (R113). -/
theorem completeHostNeverStops : Obligations.CompleteHostNeverStops := by
  rintro ⟨r, script⟩ hs
  cases script with
  | nil => exact ⟨⟨r, []⟩, step_of_script_nil rfl, hs, rfl⟩
  | cons x rest =>
    have hx : completeInput x = true := hs x List.mem_cons_self
    exact ⟨⟨respAfter r x, rest⟩, step_of_completeInput hx r rest, fun y hy => hs y (List.mem_cons_of_mem x hy), rfl⟩

/-! ### Several units -/

/-- Everything a step of one unit can do: it puts the state that the unit's own step answers in the unit's place. -/
theorem stepUnit_eq_some_iff {units after : List State} {k : Nat} : stepUnit units k = some after ↔
    ∃ s t : State, units[k]? = some s ∧ step s = .next t ∧ after = units.set k t := by
  constructor
  · intro h
    rw [stepUnit] at h
    split at h
    · cases h
    · next s hs =>
      split at h
      · next t ht => exact ⟨s, t, hs, ht, (Option.some.inj h).symm⟩
      · cases h
      · cases h
  · rintro ⟨s, t, hs, ht, rfl⟩
    simp only [stepUnit, hs, ht]

/-- Settles O50: one place of the list is set, so its length and every other place stay. -/
theorem unitsShareNothing : Obligations.UnitsShareNothing := by
  refine ⟨fun units k s t hs ht => stepUnit_eq_some_iff.2 ⟨s, t, hs, ht, rfl⟩, fun units after k h => ?_⟩
  obtain ⟨s, t, hs, ht, rfl⟩ := stepUnit_eq_some_iff.1 h
  have hk : k < units.length := (List.getElem?_eq_some_iff.1 hs).1
  exact ⟨List.length_set, fun j hj => List.getElem?_set_ne hj.symm, s, t, hs, ht, List.getElem?_set_self hk⟩

end Sys2Proof.Machine

/-! Reset, and the same value as both operands of a request (70_reset_and_hazards.md rules R123, R124, R129). -/

namespace Sys2Proof.Machine

/-! ### An empty `RESP` -/

/-- An empty `RESP` puts nothing on the response port (R124). -/
theorem port_eq_none_iff {s : State} : s.port = none ↔ s.resp = none := Option.map_eq_none_iff

/-- The invariant asks nothing of an empty `RESP`. -/
theorem inv_of_resp_eq_none {s : State} (h : s.resp = none) : s.Inv := by
  intro r hr
  rw [h] at hr
  cases hr

/-! ### Reset -/

theorem step_of_script_reset {s : State} {rest : List HostInput} (h : s.script = .reset :: rest) :
    step s = .next { resp := none, script := rest } := by
  obtain ⟨r, script⟩ := s
  obtain rfl : script = .reset :: rest := h
  exact step_reset r rest

/-- Settles O40: by the step at a reset input; writing `RESP` empty again changes nothing. -/
theorem resetEmptiesResp : Obligations.ResetEmptiesResp :=
  ⟨fun _ _ => step_of_script_reset, fun _ => ⟨rfl, rfl⟩⟩

/-- Settles O41: the port shows only what `RESP` holds, which is nothing in either state. -/
theorem nothingToReadAfterReset : Obligations.NothingToReadAfterReset :=
  ⟨reset_resp, port_eq_none_iff.2 reset_resp, fun s => port_eq_none_iff.2 (applyReset_resp s)⟩

/-- Settles O49: `RESP` is empty. -/
theorem resetHasLegalResponse : Obligations.ResetHasLegalResponse := inv_of_resp_eq_none reset_resp

/-! ### The same value as both operands -/

theorem equals_self {n : Nat} (x : Limbs n) : equals x x = true := (equals_iff x x).2 rfl

theorem lessThan_self (x : WideInt) : lessThan x x = false := (lessThan_false_iff_V x x).2 le_rfl

theorem subtract_self {n : Nat} (x : Limbs n) : subtract x x = Limbs.zero n := subtract_eq_zero_iff.2 rfl

theorem U_add_self_emod (x : WideInt) : ((add x x).U : Int) = 2 * x.V % (Config.MODULUS : Int) := by
  rw [WideInt.U_add_emod, two_mul]

theorem U_multiply_self_emod (x : WideInt) : ((multiply x x).U : Int) = x.V ^ 2 % (Config.MODULUS : Int) := by
  rw [WideInt.U_multiply_emod, sq]

/-- Settles O29: each operation at equal operands, DIV and REM by whether the value is zero. -/
theorem sameOperandTwice : Obligations.SameOperandTwice := by
  intro x s
  have hzero : x.V = 0 ↔ x = WideInt.ZERO := Limbs.V_eq_zero
  refine ⟨⟨add x x, exec_add x x s, U_add_self_emod x⟩, ?sub, ⟨multiply x x, exec_mul x x s, U_multiply_self_emod x⟩,
    fun hx => ?nonzero, fun hx => ?zero, ?eq, ?ne, ?lt, ?le, ?gt, ?ge⟩
  case sub => rw [exec_sub, subtract_self, WideInt.ZERO]
  case nonzero =>
    have hV : x.V ≠ 0 := mt hzero.1 hx
    rw [exec_div_of_ne x hV, exec_rem_of_ne x hV, divide_self hV, remainder_self hV]
    exact ⟨rfl, rfl⟩
  case zero =>
    have hV : x.V = 0 := hzero.2 hx
    exact ⟨(exec_div_eq_raise_iff x s).2 hV, (exec_rem_eq_raise_iff x s).2 hV⟩
  case eq => rw [exec_eq, equals_self]
  case ne => rw [exec_ne, equals_self, Bool.not_true]
  case lt => rw [exec_lt, lessThan_self]
  case le => rw [exec_le, lessThan_self, Bool.not_false]
  case gt => rw [exec_gt, lessThan_self]
  case ge => rw [exec_ge, lessThan_self, Bool.not_false]

end Sys2Proof.Machine
